-- ==== Sys2Proof/Word.lean ====
section
/-! DEFINITION. The value widths of `SDES_CORE` (00_scope.md R2, R4): every value has exactly its
logical width, so a value of the wrong width is a type error. -/

namespace Sys2Proof

/-- The 10-bit master key (R2), every value 0 to 1023 legal (R33). -/
abbrev Key := BitVec 10

/-- The 8-bit block, input or result (R2). -/
abbrev Block := BitVec 8

/-- An 8-bit round key, K1 or K2 (R2, R18). -/
abbrev RoundKey := BitVec 8

/-- A 5-bit half of a 10-bit key-schedule value (R2). -/
abbrev HalfKey := BitVec 5

/-- A 4-bit half of a block, and the input of an S-box (R2). -/
abbrev HalfBlock := BitVec 4

/-- The 2-bit output of an S-box, and a row or column number of one (R2, R22). -/
abbrev Crumb := BitVec 2

/-- The 20-bit command bundle `CMD` (R32). -/
abbrev Cmd := BitVec 20

/-- A split pair: "two fixed-width values of equal width" (R5). -/
structure SplitPair (h : Nat) where
  /-- The high-order half. -/
  left : BitVec h
  /-- The low-order half. -/
  right : BitVec h
deriving DecidableEq, Repr

end Sys2Proof
end

