-- ==== Sys2Proof/Machine/Operands.lean ====
section
/-! DEFINITION. The views of a value the datapath uses: the three ways to name a bit (00_scope.md
section 5.1), bit-vector conversion (40_bitvec_permutations.md R41, R42) and split pairs
(00_scope.md R5). -/

namespace Sys2Proof.Machine

/-- `bit(v, j) = (v >> j) & 1`: bit number `j`, 0 the least significant. -/
def bit {w : Nat} (v : BitVec w) (j : Nat) : Bool := v.getLsbD j

/-- `vec(v, w, i) = (v >> (w-1-i)) & 1`: vector index `i`, 0 the leftmost. -/
def vec {w : Nat} (v : BitVec w) (i : Nat) : Bool := bit v (w - 1 - i)

/-- `pos(v, w, p) = (v >> (w-p)) & 1`: position `p`, 1 the leftmost, `1 ≤ p ≤ w`. -/
def pos {w : Nat} (v : BitVec w) (p : Nat) : Bool := bit v (w - p)

/-- `toBits`: "ordered sequence of `width` bits, most-significant first" (R41). -/
def toBits {w : Nat} (v : BitVec w) : List Bool := (List.range w).map (vec v)

/-- `Σ bit[i] · 2^(width-1-i)` over a sequence whose element 0 is the leftmost (R42). -/
def bitsValue : List Bool → Nat
  | [] => 0
  | b :: bs => b.toNat * 2 ^ bs.length + bitsValue bs

/-- `fromBits`: the unsigned integer of a sequence of `w` bits, as a value of width `w` (R42). On a
sequence of another length R42 gives no result, and the spec is silent on wider values (R4; N15 and U4
of the open points): that the function is total there, zero-extending a shorter sequence and keeping
the last `w` bits of a longer one, is a DESIGN CHOICE (log entry 15), and no command reaches it. -/
def fromBits (w : Nat) (bits : List Bool) : BitVec w := BitVec.ofNat w (bitsValue bits)

/-- `split_w(v)` for `w = 2h`: `left` is the `h` high-order bits, `right` the `h` low-order (R5). -/
def split {h : Nat} (v : BitVec (h + h)) : SplitPair h :=
  { left := v.extractLsb' h h, right := v.extractLsb' 0 h }

/-- `concat(left, right) = (left << h) | right`, written `left || right` (R5). -/
def concat {h : Nat} (p : SplitPair h) : BitVec (h + h) := p.left ++ p.right

end Sys2Proof.Machine
end

