-- ==== Sys2Proof/Machine/Permutations.lean ====
section
/-! DEFINITION. The generic wiring function and the six permutation and selection primitives
(40_bitvec_permutations.md R44 to R50). A table is indexed by OUTPUT position and its entries name
INPUT positions, counted from 1 at the left (R44, 90_conflicts.md C5). -/

namespace Sys2Proof.Machine

/-- `permute(T, x)`: output position `i` takes input position `t_i` (R44). -/
def permute {n m : Nat} (table : Vector Nat n) (x : BitVec m) : BitVec n :=
  fromBits n (table.toList.map (pos x))

/-- R45. -/
def p10Table : Vector Nat 10 := #v[3, 5, 2, 7, 4, 10, 1, 9, 8, 6]
/-- R46. -/
def p8Table : Vector Nat 8 := #v[6, 3, 7, 4, 8, 5, 10, 9]
/-- R47. -/
def p4Table : Vector Nat 4 := #v[2, 4, 3, 1]
/-- R48. -/
def ipTable : Vector Nat 8 := #v[2, 6, 3, 1, 4, 8, 5, 7]
/-- R49. -/
def ipInvTable : Vector Nat 8 := #v[4, 1, 3, 5, 7, 2, 8, 6]
/-- R50. -/
def epTable : Vector Nat 8 := #v[4, 1, 2, 3, 2, 3, 4, 1]

/-- P10, a permutation of 10 bits, the first step of the key scheduler (R45). -/
def p10 (x : BitVec 10) : BitVec 10 := permute p10Table x

/-- P8, a selection of 8 bits of 10 (R46). -/
def p8 (x : BitVec 10) : RoundKey := permute p8Table x

/-- P4, a permutation of 4 bits (R47). -/
def p4 (x : BitVec 4) : HalfBlock := permute p4Table x

/-- IP, the initial permutation (R48). -/
def ip (x : Block) : Block := permute ipTable x

/-- IP⁻¹, the final permutation (R49). -/
def ipInv (x : Block) : Block := permute ipInvTable x

/-- EP, the expansion of 4 bits to 8 (R50, 90_conflicts.md C6). -/
def ep (x : HalfBlock) : BitVec 8 := permute epTable x

end Sys2Proof.Machine
end

