-- ==== Sys2Proof/Machine/ShiftSbox.lean ====
section
/-! DEFINITION. The left circular shifts LS1 and LS2 and the substitution boxes S0 and S1
(41_shift_sbox.md R55 to R60). -/

namespace Sys2Proof.Machine

/-- `((v << n) | (v >> (5-n))) & 0b11111`: the width 5 of the type is the mask (R55, R56). -/
def rotateLeft5 (n : Nat) (v : HalfKey) : HalfKey := (v <<< n) ||| (v >>> (5 - n))

/-- LS1: "rotate a 5-bit value left by 1" (R55). -/
def ls1 (v : HalfKey) : HalfKey := rotateLeft5 1 v

/-- LS2: "rotate left by 2" (R56). -/
def ls2 (v : HalfKey) : HalfKey := rotateLeft5 2 v

/-- A substitution table, 4 rows by 4 columns of 2-bit values (20_memory.md R22). -/
abbrev SboxTable := Vector (Vector Crumb 4) 4

/-- S0, "box 0, row-major" (R59). -/
def s0Table : SboxTable := #v[#v[1, 0, 3, 2], #v[3, 2, 1, 0], #v[0, 2, 1, 3], #v[3, 1, 3, 2]]

/-- S1, "box 1" (R60). -/
def s1Table : SboxTable := #v[#v[0, 1, 2, 3], #v[2, 0, 1, 3], #v[3, 0, 1, 0], #v[2, 1, 0, 3]]

/-- `row(x) = 2·b0 + b3`, the outermost vector indices, the leftmost high (R58, C4). -/
def sboxRow (x : HalfBlock) : Crumb := BitVec.ofNat 2 (2 * (vec x 0).toNat + (vec x 3).toNat)

/-- `col(x) = 2·b1 + b2`, the innermost vector indices, the leftmost high (R58, C4). -/
def sboxCol (x : HalfBlock) : Crumb := BitVec.ofNat 2 (2 * (vec x 1).toNat + (vec x 2).toNat)

/-- `T[row][col]`, always in range since both are 2-bit numbers (R25, R63). -/
def sboxEntry (table : SboxTable) (row col : Crumb) : Crumb := (table.get row.toFin).get col.toFin

/-- `S0(x) = S0[row(x)][col(x)]` (R59). -/
def s0 (x : HalfBlock) : Crumb := sboxEntry s0Table (sboxRow x) (sboxCol x)

/-- `S1(x) = S1[row(x)][col(x)]` (R60). -/
def s1 (x : HalfBlock) : Crumb := sboxEntry s1Table (sboxRow x) (sboxCol x)

/-- A box as a packed ROM of sixteen 2-bit words, the word of address 0 most significant:
`(packed >> (2 * (15 - x))) & 3` (R61). -/
def romEntry (packed : BitVec 32) (x : HalfBlock) : Crumb :=
  (packed >>> (2 * (15 - x.toNat))).setWidth 2

end Sys2Proof.Machine
end

