-- ==== Sys2Proof/Machine/KeySchedule.lean ====
section
/-! DEFINITION. The key scheduler, by the five steps of the document (42_key_schedule.md R64 to
R69). -/

namespace Sys2Proof.Machine

/-- Apply `f` to each half separately; "no bit crosses from one half to the other" (R65). -/
def onHalves {h : Nat} (f : BitVec h → BitVec h) (p : SplitPair h) : SplitPair h :=
  { left := f p.left, right := f p.right }

/-- Step 1: P10 and split, `(l0, r0)` (R64). -/
def keyState0 (key : Key) : SplitPair 5 := split (p10 key)

/-- Step 2: LS1 on each half, `(l1, r1)`, the "P10-LS1 state" (R65). -/
def keyState1 (key : Key) : SplitPair 5 := onHalves ls1 (keyState0 key)

/-- Step 3: `K1 = P8(l1 || r1)` (R66). -/
def keyK1 (key : Key) : RoundKey := p8 (concat (keyState1 key))

/-- Step 4: LS2 on each half of the P10-LS1 state, `(l2, r2)` (R67, 90_conflicts.md C3). -/
def keyState2 (key : Key) : SplitPair 5 := onHalves ls2 (keyState1 key)

/-- Step 5: `K2 = P8(l2 || r2)` (R68). -/
def keyK2 (key : Key) : RoundKey := p8 (concat (keyState2 key))

/-- `KEYGEN(key) = (K1, K2)` (R69). -/
def keygen (key : Key) : RoundKey × RoundKey := (keyK1 key, keyK2 key)

end Sys2Proof.Machine
end

