-- ==== Sys2Proof/Machine/Round.lean ====
section
/-! DEFINITION. The Feistel round primitive fk, its keyed mapping F, and the half-swap SW
(43_round_function.md R71 to R73). -/

namespace Sys2Proof.Machine

/-- The substitution of a key-mixed value and P4: S0 on the left half, S1 on the right half, S0's
output the high-order pair of P4's input (R71). -/
def substitute (x : BitVec 8) : HalfBlock :=
  let halves : SplitPair 4 := split x
  p4 (s0 halves.left ++ s1 halves.right)

/-- `F(r, sk)`, the keyed mapping of the right half (R71). -/
def roundF (r : HalfBlock) (sk : RoundKey) : HalfBlock := substitute (ep r ^^^ sk)

/-- `fk((l, r), sk) = (l ^ F(r, sk), r)`, "right half is passed through unchanged" (R72). -/
def fk (p : SplitPair 4) (sk : RoundKey) : SplitPair 4 :=
  { left := p.left ^^^ roundF p.right sk, right := p.right }

/-- `SW((l, r)) = (r, l)` (R73). -/
def sw (p : SplitPair 4) : SplitPair 4 := { left := p.right, right := p.left }

end Sys2Proof.Machine
end

