-- ==== Sys2Proof/Machine/Cipher.lean ====
section
/-! DEFINITION. The one operation of the core, `transformBlock` (44_cipher_commands.md R78). -/

namespace Sys2Proof.Machine

/-- The round keys in the order the two rounds use them: `(K1, K2)` to encrypt, `(K2, K1)` to
decrypt, a selection of data and not a transfer of control (R79). -/
def roundKeys (key : Key) (decrypt : Bool) : RoundKey × RoundKey :=
  if decrypt = true then ((keygen key).2, (keygen key).1) else keygen key

/-- The two rounds on a split pair, with the one swap between them and none after (R78). -/
def twoRounds (ks : RoundKey × RoundKey) (p : SplitPair 4) : SplitPair 4 :=
  fk (sw (fk p ks.1)) ks.2

/-- `transformBlock(key, block, decrypt)` (R78). -/
def transformBlock (key : Key) (block : Block) (decrypt : Bool) : Block :=
  ipInv (concat (twoRounds (roundKeys key decrypt) (split (ip block))))

end Sys2Proof.Machine
end

