-- ==== Sys2Proof/Config.lean ====
section
/-! DEFINITION. What is fixed for the machine and what is left free: the timing parameter and the
values a host presents at the input ports. -/

namespace Sys2Proof

/-- `LATENCY` (70_reset_and_hazards.md R106): edges from sampling a command to its result at `dout`.
No definition of the machine reads it; a claim of R106 is stated with it. -/
def Config.latency : Nat := 1

/-! The host "may present any value at every input port" (10_state.md R7). At an edge that the list
`State.inputs` does not reach, the value at each port is a FREE VALUE, named by the number of the host
that drives the ports and the number of the edge. None has a body, so a claim that holds, holds for
every choice the host could make (log entry 2), and nothing ties one host's values to another's, as
the hosts of several instances are independent (60_exceptions.md R96; log entry 14). -/

/-- Free value that host `h` presents at port `rst` at edge `n`. -/
opaque Config.hostRst (h n : Nat) : Bool

/-- Free value that host `h` presents at port `start` at edge `n`. -/
opaque Config.hostStart (h n : Nat) : Bool

/-- Free value that host `h` presents at port `decrypt` at edge `n`. -/
opaque Config.hostDecrypt (h n : Nat) : Bool

/-- Free value that host `h` presents at port `key` at edge `n`. -/
opaque Config.hostKey (h n : Nat) : Key

/-- Free value that host `h` presents at port `din` at edge `n`. -/
opaque Config.hostDin (h n : Nat) : Block

end Sys2Proof
end

