-- ==== Sys2Proof/Syntax.lean ====
section
/-! DEFINITION. The three command forms of 30_encoding.md R34, one constructor per row of
spec/opcode_table.json. RESET is no command: it is the event of the port `rst` (R32, R39), see
`Event` in Decode.lean. -/

namespace Sys2Proof

/-- A command. -/
inductive Instr where
  /-- `IDLE`: no command at this edge; no operand field is read (R34, R83). -/
  | idle
  /-- `ENC key, din`: encrypt one block (R34, R81). -/
  | enc (key : Key) (din : Block)
  /-- `DEC key, din`: decrypt one block (R34, R82). -/
  | dec (key : Key) (din : Block)
deriving DecidableEq, Repr

end Sys2Proof
end

