-- ==== Sys2Proof/WellFormed.lean ====
section
/-! DEFINITION. The operand ranges of 30_encoding.md R33: of a command, whose field widths already
keep them, and of a line of the written notation of R38, whose operands are plain integers and which
the host must check before it drives the ports (R88, R90). -/

namespace Sys2Proof

/-- The key range check, "a validated master key in range [0, 1023]" (R88). -/
def keyInRange (k : Nat) : Bool := decide (k ≤ 1023)

/-- The block range check, `<b>` an integer 0 to 255 (R38). -/
def blockInRange (b : Nat) : Bool := decide (b ≤ 255)

/-- A command's operands are in range (R33). Every command passes (R35): the fields cannot hold an
out-of-range value. -/
def WellFormed : Instr → Bool
  | .idle => true
  | .enc key din => keyInRange key.toNat && blockInRange din.toNat
  | .dec key din => keyInRange key.toNat && blockInRange din.toNat

/-- One line of the written notation, one step per line (R38). -/
inductive HostLine where
  /-- `RESET`. -/
  | reset
  /-- `IDLE`. -/
  | idle
  /-- `ENC key=<k>, din=<b>`. -/
  | enc (k b : Nat)
  /-- `DEC key=<k>, din=<b>`. -/
  | dec (k b : Nat)
deriving DecidableEq, Repr

/-- A line is legal: "`<k>` is an integer 0 to 1023 and `<b>` an integer 0 to 255" (R38). -/
def HostLine.wellFormed : HostLine → Bool
  | .reset => true
  | .idle => true
  | .enc k b => keyInRange k && blockInRange b
  | .dec k b => keyInRange k && blockInRange b

end Sys2Proof
end

