-- ==== Sys2Proof/Decode.lean ====
section
/-! DEFINITION. The command bundle `CMD`, its fields, the total decoder and the encoder
(30_encoding.md R32 to R40), and the input ports sampled at one edge (10_state.md R8). -/

namespace Sys2Proof

/-! ## The bundle and its fields -/

/-- `CMD = (start << 19) | (decrypt << 18) | (key << 8) | din` (R32). -/
def bundle (start decrypt : Bool) (key : Key) (din : Block) : Cmd :=
  ((BitVec.ofBool start).setWidth 20 <<< 19) ||| ((BitVec.ofBool decrypt).setWidth 20 <<< 18) |||
    (key.setWidth 20 <<< 8) ||| din.setWidth 20

/-- Field `start = CMD[19]` (R32). -/
def cmdStart (c : Cmd) : Bool := c.getLsbD 19

/-- Field `decrypt = CMD[18]`; 1 is the document's `true` (R32, R33). -/
def cmdDecrypt (c : Cmd) : Bool := c.getLsbD 18

/-- Field `key = CMD[17:8]`, used as a 10-bit unsigned value (R33). -/
def cmdKey (c : Cmd) : Key := c.extractLsb' 8 10

/-- Field `din = CMD[7:0]`, used as an 8-bit unsigned value (R33). -/
def cmdDin (c : Cmd) : Block := c.extractLsb' 0 8

/-! ## Decoder and encoder -/

/-- The decoder of R39 for `rst = 0`: total, with no invalid verdict (R35). In the `IDLE` form bits
18:0 are ignored (R36). -/
def decode (c : Cmd) : Instr :=
  if cmdStart c = false then .idle
  else if cmdDecrypt c = false then .enc (cmdKey c) (cmdDin c)
  else .dec (cmdKey c) (cmdDin c)

/-- The encoder of R39; `IDLE` has the canonical spelling `0x00000`. -/
def encode : Instr → Cmd
  | .idle => 0x00000#20
  | .enc key din => bundle true false key din
  | .dec key din => bundle true true key din

/-- What one rising edge asks for (R39): `RESET` has no `CMD` spelling. -/
inductive Event where
  /-- A step with `rst = 1` (R99). -/
  | reset
  /-- A step with `rst = 0` and the command the bundle spells. -/
  | command (i : Instr)
deriving DecidableEq, Repr

/-- `decode(rst, c)` of R39: `rst` overrides the bundle, all of whose bits are then ignored (R36). -/
def decodeEvent (rst : Bool) (c : Cmd) : Event :=
  if rst = true then .reset else .command (decode c)

/-! ## The words of R40 -/

/-- R40: `0xA8297` is `ENC key=642, din=0x97`. -/
theorem decode_enc_642_97 : decode 0xA8297#20 = .enc 642#10 0x97#8 := by decide

/-- R40: `0xE8238` is `DEC key=642, din=0x38`. -/
theorem decode_dec_642_38 : decode 0xE8238#20 = .dec 642#10 0x38#8 := by decide

/-- R40: `0x00000` is `IDLE`. -/
theorem decode_idle_canonical : decode 0x00000#20 = .idle := by decide

/-- R40: `0x555AA` is also `IDLE`. -/
theorem decode_idle_ignored_bits : decode 0x555AA#20 = .idle := by decide

/-! ## The sampled input ports -/

/-- The input ports other than `clk`, as sampled at one rising edge (R8, R13). -/
structure Inputs where
  /-- Synchronous reset, active high. -/
  rst : Bool
  /-- A command is presented. -/
  start : Bool
  /-- Direction: `true` decrypts. -/
  decrypt : Bool
  /-- Master key of the command. -/
  key : Key
  /-- Block of the command. -/
  din : Block
deriving DecidableEq, Repr

/-- The bundle a sample presents; `rst` is not part of it (R32). -/
def Inputs.cmd (p : Inputs) : Cmd := bundle p.start p.decrypt p.key p.din

/-- What a sample asks for (R39). -/
def Inputs.event (p : Inputs) : Event := decodeEvent p.rst p.cmd

/-- The sample that presents the bundle `c` with `rst = 0`. -/
def Inputs.ofCmd (c : Cmd) : Inputs :=
  { rst := false, start := cmdStart c, decrypt := cmdDecrypt c, key := cmdKey c, din := cmdDin c }

/-- A sample with `rst = 1`, the other ports holding zero; they are ignored (R13, R36). -/
def Inputs.reset : Inputs :=
  { rst := true, start := false, decrypt := false, key := 0#10, din := 0#8 }

/-- The sample a line of the written notation stands for (R38); `none` where an operand is out of
range, which the host rejects and never presents (R33, R90). -/
def HostLine.inputs? (l : HostLine) : Option Inputs :=
  if l.wellFormed then
    match l with
    | .reset => some Inputs.reset
    | .idle => some (Inputs.ofCmd 0x00000#20)
    | .enc k b => some (Inputs.ofCmd (bundle true false (BitVec.ofNat 10 k) (BitVec.ofNat 8 b)))
    | .dec k b => some (Inputs.ofCmd (bundle true true (BitVec.ofNat 10 k) (BitVec.ofNat 8 b)))
  else none

/-! ## The host's view of the opcode table -/

/-- The bundle whose bits are the low `nbits` bits of `w`, numbered as spec/opcode_table.json numbers
them; every bit above `nbits` is 0. `none` where a bit above bit 19 is set: no bundle has one. -/
def tableCmd (nbits w : Nat) : Option Cmd :=
  let v := w % 2 ^ nbits
  if v < 2 ^ 20 then some (BitVec.ofNat 20 v) else none

/-- The command read from a word of the opcode table. -/
def decodeTableWord (nbits w : Nat) : Option Instr := (tableCmd nbits w).map decode

end Sys2Proof
end

