-- ==== Sys2Proof/Machine/State.lean ====
section
/-! DEFINITION. The state of `SDES_CORE` (10_state.md R10) with the host's samples beside it, the
reasons a step can stop, and the reset state (R20). -/

namespace Sys2Proof.Machine

/-- The reasons a step can fault: none. "The set of synchronous exceptions is empty"
(60_exceptions.md R89), and "no step faults, none is refused, none is stuck" (10_state.md R12). -/
inductive Fault where
deriving DecidableEq, Repr

/-- The reasons a step can be refused. -/
inductive Refusal where
  /-- An instruction without a meaning, raised by an arm of `exec` only; no arm raises it in this
  model, since IDLE, ENC and DEC all have their meaning. Safe: the machine stops. -/
  | notModelled (mnemonic : String)
deriving DecidableEq, Repr

/-- The values at the output ports `dout` and `valid` (R8), which are the values of the two elements
of the architectural state (R10). -/
structure Outputs where
  /-- Port `dout`, 8 bits. -/
  dout : Block
  /-- Port `valid`. -/
  valid : Bool
deriving DecidableEq, Repr

/-- The state. `dout` and `valid` are the architectural state, "two elements and nothing else"
(R10). `inputs`, `edge` and `host` are the MODEL'S OWN: they hold what the host presents, since a step
has no input argument (log entries 1, 2 and 14). -/
structure State where
  /-- `DOUT`: the result of the most recent ENC or DEC since reset; 0x00 if there was none (R10). -/
  dout : Block
  /-- `VALID`: at least one ENC or DEC has executed since the last reset (R10, R16). -/
  valid : Bool
  /-- The samples the host presents at the coming edges, next edge first; any list is allowed, as the
  host may present any value at every edge (R7). -/
  inputs : List Inputs
  /-- The number of the coming edge, which names its free sample if `inputs` is empty. -/
  edge : Nat
  /-- The number of the host that drives the ports, which names whose free samples are read. It
  identifies the host and not the core: a core has no instance identifier (60_exceptions.md R96). -/
  host : Nat
deriving DecidableEq, Repr

/-- The machine right after reset: `DOUT = 0x00`, `VALID = 0` (R20), with nothing yet known of what
the host presents next (log entries 1, 2 and 14). -/
def State.reset : State := { dout := 0x00#8, valid := false, inputs := [], edge := 0, host := 0 }

end Sys2Proof.Machine
end

