-- ==== Sys2Proof/Machine/Flags.lean ====
section
/-! DEFINITION. The one flag, `VALID` (10_state.md R16). -/

namespace Sys2Proof.Machine

/-- `VALID <- 1`, as every ENC and every DEC does (R16). -/
def setValid (s : State) : State := { s with valid := true }

/-- `VALID <- 0`, as reset alone does (R16). -/
def clearValid (s : State) : State := { s with valid := false }

end Sys2Proof.Machine
end

