-- ==== Sys2Proof/Machine/Ops.lean ====
section
/-! DEFINITION. The named operations over the state: sampling the input ports, moving past an edge,
the write of a result, the reset event, and the output ports. There is no exception to take and none
to return from (60_exceptions.md R89, R93). -/

namespace Sys2Proof.Machine

/-- `DOUT <- v`. -/
def writeDout (v : Block) (s : State) : State := { s with dout := v }

/-- What an executing command writes, `DOUT <- v` and `VALID <- 1`, together (R26, R81, R82). -/
def writeResult (v : Block) (s : State) : State := setValid (writeDout v s)

/-- The reset event: `DOUT <- 0x00`, `VALID <- 0` (70_reset_and_hazards.md R99). -/
def resetCore (s : State) : State := clearValid (writeDout 0x00#8 s)

/-- The values at the output ports; reading them changes nothing (R8, R27). -/
def State.outputs (s : State) : Outputs := { dout := s.dout, valid := s.valid }

/-- The free sample that host `h` presents at edge `n`: any value at every port (R7). Two hosts' free
samples are unrelated (R96); that they are named by these two numbers is a DESIGN CHOICE (log entries
2 and 14). -/
def freeInputs (h n : Nat) : Inputs :=
  { rst := Config.hostRst h n, start := Config.hostStart h n, decrypt := Config.hostDecrypt h n,
    key := Config.hostKey h n, din := Config.hostDin h n }

/-- What the core samples at the coming edge, all ports together (R12, R26): the head of the host's
list, or its host's free sample of the edge where the list has ended. -/
def sample (s : State) : Inputs :=
  match s.inputs with
  | [] => freeInputs s.host s.edge
  | p :: _ => p

/-- Past the edge: the sample is not remembered, "a command that is not presented again is not
executed again" (R13). -/
def nextEdge (s : State) : State := { s with inputs := s.inputs.tail, edge := s.edge + 1 }

/-- `s` with the sample of the coming edge replaced by `p`; the samples of later edges stand. -/
def presentNext (p : Inputs) (s : State) : State := { s with inputs := p :: s.inputs.tail }

/-- `s` with its ports driven by host `h` (log entry 14); no other field is touched. -/
def drivenBy (h : Nat) (s : State) : State := { s with host := h }

end Sys2Proof.Machine
end

