-- ==== Sys2Proof/Machine/Commands.lean ====
section
/-! DEFINITION. The meanings of the three command forms (44_cipher_commands.md R81 to R83). -/

namespace Sys2Proof.Machine

/-- `IDLE`: `DOUT <- DOUT`, `VALID <- VALID` (R83). -/
def execIdle (s : State) : Host.Outcome State Fault Refusal := .next s

/-- `ENC key=k, din=b`: `DOUT <- transformBlock(k, b, 0)`, `VALID <- 1` (R81). -/
def execEnc (key : Key) (din : Block) (s : State) : Host.Outcome State Fault Refusal :=
  .next (writeResult (transformBlock key din false) s)

/-- `DEC key=k, din=b`: `DOUT <- transformBlock(k, b, 1)`, `VALID <- 1` (R82). -/
def execDec (key : Key) (din : Block) (s : State) : Host.Outcome State Fault Refusal :=
  .next (writeResult (transformBlock key din true) s)

end Sys2Proof.Machine
end

