-- ==== Sys2Proof/Machine/Dispatch.lean ====
section
/-! DEFINITION. One arm per command form, each a direct call of its meaning. -/

namespace Sys2Proof.Machine

def exec (i : Instr) (s : State) : Host.Outcome State Fault Refusal :=
  match i with
  | .idle => Sys2Proof.Machine.execIdle s
  | .enc key din => Sys2Proof.Machine.execEnc key din s
  | .dec key din => Sys2Proof.Machine.execDec key din s

end Sys2Proof.Machine
end

