-- ==== Sys2Proof/Machine/Step.lean ====
section
/-! DEFINITION. The step, one rising edge of `clk` (10_state.md R12), and the placing of a word of the
opcode table where the next step samples it. -/

namespace Sys2Proof.Machine

/-- One rising edge: sample the ports, move past the edge, and do what the sample asks for. `rst`
wins over a command at the same edge (R12, 60_exceptions.md R92). -/
def step (s : State) : Host.Outcome State Fault Refusal :=
  match (sample s).event with
  | .reset => .next (resetCore (nextEdge s))
  | .command i => exec i (nextEdge s)

/-- `s` with the bundle whose bits are `w` presented, with `rst = 0`, at the coming edge. A word with
a bit above bit 19 is no bundle and leaves `s` as it is (log entry 5). -/
def State.withFetchWord (s : State) (nbits w : Nat) : State :=
  match tableCmd nbits w with
  | some c => presentNext (Inputs.ofCmd c) s
  | none => s

end Sys2Proof.Machine
end

