-- ==== Sys2Proof/Machine/Instances.lean ====
section
/-! DEFINITION. Several instances of the core: "a model of `n` instances is the product of `n`
independent copies" (60_exceptions.md R96). -/

namespace Sys2Proof.Machine

/-- One edge of a system of instances, each with its own state, its own list of samples (log entry 10)
and its own host, numbered by the instance's place (log entry 14): no two instances read the free
samples of one host. -/
def systemStep (cores : List State) : List (Host.Outcome State Fault Refusal) :=
  cores.mapIdx (fun i s => step (drivenBy i s))

end Sys2Proof.Machine
end

