-- ==== Sys2Proof/Safety.lean ====
section
/-! DEFINITION. The terms claims use: the step of 10_state.md R12 over the ports alone, the result of a
history of samples (R10), what the host reads off a run (R88), and the invariant of R104. -/

namespace Sys2Proof.Safety

open Sys2Proof.Machine

/-- While `VALID = 0`, `DOUT` holds the reset value 0x00 (R10, R104). -/
abbrev InvalidMeansZero (s : State) : Prop := s.valid = false → s.dout = 0x00#8

/-- The outputs after an edge as R12 writes them: from the outputs before and the sampled ports, with
no decoding. -/
def nextOutputs (o : Outputs) (p : Inputs) : Outputs :=
  if p.rst = true then { dout := 0x00#8, valid := false }
  else if p.start = false then o
  else { dout := transformBlock p.key p.din p.decrypt, valid := true }

/-- The outputs after a history of samples, MOST RECENT FIRST, as R10 words them: the result of the
most recent command since the last reset, 0x00 and 0 if a reset came last, and what was there before
if the history holds neither. -/
def mostRecent (before : Outputs) : List Inputs → Outputs
  | [] => before
  | p :: older =>
    if p.rst = true then { dout := 0x00#8, valid := false }
    else if p.start = true then { dout := transformBlock p.key p.din p.decrypt, valid := true }
    else mostRecent before older

/-- What the host reads at the output ports after each of `n` edges, first edge first. -/
def trace : Nat → State → List Outputs
  | 0, _ => []
  | n + 1, s =>
    match step s with
    | .next t => t.outputs :: trace n t
    | .fault _ => []
    | .refused _ => []

/-- fk under a round key on an 8-bit value seen as a split pair, `fk_s(p) = fk(p, s)` (R80). -/
def fkBlock (sk : RoundKey) (v : Block) : Block := concat (fk (split (h := 4) v) sk)

/-- SW on an 8-bit value seen as a split pair (R73, R80). -/
def swBlock (v : Block) : Block := concat (sw (split (h := 4) v))

/-- A sample that presents a command with `rst = 0`, as a host does for one byte of a stream (R88). -/
def present (decrypt : Bool) (key : Key) (din : Block) : Inputs :=
  { rst := false, start := true, decrypt := decrypt, key := key, din := din }

end Sys2Proof.Safety
end

