-- ==== Sys2Proof/Certificates/Slice0/Obligations.lean ====
section
/-! DEFINITION. The statements for the provers, in the order of the spec's files. Each docstring names
the rule of spec/ it formalises, or the section and log entry it rests on. -/

open Sys2Proof Sys2Proof.Machine Sys2Proof.Safety

/-! ## 00_scope.md and 10_state.md -/

/-- R5: the halves of a split pair, and that split and concat are inverses. -/
def Obligations.SplitAndConcatAreInverse : Prop :=
  (∀ (h : Nat) (v : BitVec (h + h)),
    (split v).left = v.extractLsb' h h ∧ (split v).right = v.extractLsb' 0 h ∧
      concat (split v) = v) ∧
  (∀ (h : Nat) (p : SplitPair h),
    concat p = (p.left.setWidth (h + h) <<< h) ||| p.right.setWidth (h + h) ∧
      split (concat p) = p)

/-- R9: bit `w-1` of a port is vector index 0 and position 1, bit 0 is position `w`. -/
def Obligations.PortBitNumbering : Prop :=
  (∀ key : Key, bit key 9 = vec key 0 ∧ bit key 9 = pos key 1 ∧ bit key 0 = pos key 10) ∧
  (∀ din : Block, bit din 7 = vec din 0 ∧ bit din 7 = pos din 1 ∧ bit din 0 = pos din 8) ∧
  (∀ (w p : Nat) (v : BitVec w), 1 ≤ p → p ≤ w →
    pos v p = vec v (p - 1) ∧ pos v p = bit v (w - p) ∧ pos v p = v.toNat.testBit (w - p))

/-- R10: `DOUT` and `VALID` after a history that began in the reset state, and that nothing else of
the state reaches them. -/
def Obligations.OutputsHoldMostRecentResult : Prop :=
  (∀ (xs rest : List Inputs) (s : State),
    s.inputs = xs ++ rest → s.outputs = State.reset.outputs →
    ∃ t : State, Sys2Proof.core.run xs.length s = .next t ∧
      t.outputs = mostRecent State.reset.outputs xs.reverse) ∧
  (∀ s s' : State, s.outputs = s'.outputs → sample s = sample s' →
    ∃ t t' : State, step s = .next t ∧ step s' = .next t' ∧ t.outputs = t'.outputs)

/-- R12: the whole step, from the sampled ports alone and with no decoding. That the sample list loses
its head and the edge number grows by one is the MODEL'S CHOICE, not R12's (log entries 1 and 2). -/
def Obligations.StepFollowsPortTable : Prop :=
  ∀ s : State, step s = .next
    { dout := (nextOutputs s.outputs (sample s)).dout,
      valid := (nextOutputs s.outputs (sample s)).valid,
      inputs := s.inputs.tail, edge := s.edge + 1, host := s.host }

/-- The step is `exec` of the decoded command (R39). That it runs past the edge, on the moved sample
list and edge number, and that the sample is the list's head, is the MODEL'S CHOICE (log entries 1
and 2), by which a command is not executed again (R13). -/
def Obligations.StepRunsDecodedCommand : Prop :=
  (∀ (s : State) (i : Instr), (sample s).rst = false → decode (sample s).cmd = i →
    step s = exec i { s with inputs := s.inputs.tail, edge := s.edge + 1 }) ∧
  (∀ (s : State) (p : Inputs) (rest : List Inputs), s.inputs = p :: rest → sample s = p)

/-- A word placed for the next step is the command the next step runs. The placing, and the moved
sample list and edge number, are the MODEL'S CHOICE (log entries 1, 2, 3 and 5). -/
def Obligations.PlacedWordRunsNext : Prop :=
  ∀ (s : State) (c : Cmd),
    decodeTableWord 20 c.toNat = some (decode c) ∧
    step (s.withFetchWord 20 c.toNat) =
      exec (decode c) { s with inputs := s.inputs.tail, edge := s.edge + 1 }

/-- R16: `VALID` is set by every ENC and DEC, cleared by reset only, and sticky. -/
def Obligations.ValidIsSticky : Prop :=
  (∀ s : State, ∃ t : State, step s = .next t ∧
    t.valid = (!(sample s).rst && ((sample s).start || s.valid))) ∧
  (∀ (xs rest : List Inputs) (s : State),
    s.inputs = xs ++ rest → (∀ p ∈ xs, p.rst = false) → s.valid = true →
    ∃ t : State, Sys2Proof.core.run xs.length s = .next t ∧ t.valid = true)

/-- R20: the reset values, of `State.reset` and after any step with `rst = 1`. -/
def Obligations.ResetLeavesResetState : Prop :=
  State.reset.dout = 0x00#8 ∧ State.reset.valid = false ∧
  ∀ s : State, (sample s).rst = true →
    ∃ t : State, step s = .next t ∧ t.outputs = State.reset.outputs

/-- The invariant of R104 holds at reset. -/
def Obligations.InvalidOutputIsZeroAtReset : Prop := InvalidMeansZero State.reset

/-- R104 as an invariant: while `VALID = 0`, `DOUT` reads 0x00; every step keeps it. -/
def Obligations.StepKeepsInvalidOutputZero : Prop :=
  ∀ s t : State, InvalidMeansZero s → step s = .next t → InvalidMeansZero t

/-! ## 20_memory.md -/

/-- R28: `DOUT` and `VALID` after a sequence of steps are the fold of R12 over the samples. That the
run uses up exactly those samples and counts their edges is the MODEL'S CHOICE (log entries 1 and
2). -/
def Obligations.RunIsFoldOfPortTable : Prop :=
  ∀ (xs rest : List Inputs) (s : State), s.inputs = xs ++ rest →
    Sys2Proof.core.run xs.length s = .next
      ({ dout := (xs.foldl nextOutputs s.outputs).dout,
         valid := (xs.foldl nextOutputs s.outputs).valid,
         inputs := rest, edge := s.edge + xs.length,
         host := s.host } : State)

/-! ## 30_encoding.md -/

/-- R32: `CMD` is the concatenation of the ports, as a number and field by field. -/
def Obligations.BundleConcatenatesPorts : Prop :=
  ∀ p : Inputs,
    p.cmd.toNat = p.start.toNat * 2 ^ 19 + p.decrypt.toNat * 2 ^ 18 + p.key.toNat * 2 ^ 8 +
      p.din.toNat ∧
    p.cmd.getLsbD 19 = p.start ∧ p.cmd.getLsbD 18 = p.decrypt ∧
    p.cmd.extractLsb' 8 10 = p.key ∧ p.cmd.extractLsb' 0 8 = p.din

/-- R34: three forms cover every value of `CMD`, exactly one matches. -/
def Obligations.ExactlyOneFormMatches : Prop :=
  ∀ c : Cmd,
    (c &&& 0x80000#20 = 0x00000#20 ∧ c &&& 0xC0000#20 ≠ 0x80000#20 ∧
      c &&& 0xC0000#20 ≠ 0xC0000#20 ∧ decode c = .idle) ∨
    (c &&& 0x80000#20 ≠ 0x00000#20 ∧ c &&& 0xC0000#20 = 0x80000#20 ∧
      c &&& 0xC0000#20 ≠ 0xC0000#20 ∧
      decode c = .enc (c.extractLsb' 8 10) (c.extractLsb' 0 8)) ∨
    (c &&& 0x80000#20 ≠ 0x00000#20 ∧ c &&& 0xC0000#20 ≠ 0x80000#20 ∧
      c &&& 0xC0000#20 = 0xC0000#20 ∧
      decode c = .dec (c.extractLsb' 8 10) (c.extractLsb' 0 8))

/-- R36: the ignored bits, and that no other bit is ever ignored. -/
def Obligations.OnlyIdleAndResetIgnoreBits : Prop :=
  (∀ (s : State) (p q : Inputs), p.rst = false → p.start = false → q.rst = false →
    q.start = false → step (presentNext p s) = step (presentNext q s)) ∧
  (∀ (s : State) (p q : Inputs), p.rst = true → q.rst = true →
    step (presentNext p s) = step (presentNext q s)) ∧
  (∀ (d : Bool) (j : Fin 10), ∃ (key : Key) (din : Block),
    transformBlock (key ^^^ (1#10 <<< j.val)) din d ≠ transformBlock key din d) ∧
  (∀ (d : Bool) (j : Fin 8) (key : Key) (din : Block),
    transformBlock key (din ^^^ (1#8 <<< j.val)) d ≠ transformBlock key din d)

/-- R38: what each line of the written notation presents, and the `DOUT` that ENC and DEC lines
leave. -/
def Obligations.WrittenLinesMeanTheirSteps : Prop :=
  HostLine.reset.inputs?.map Inputs.event = some .reset ∧
  HostLine.idle.inputs?.map Inputs.event = some (.command .idle) ∧
  HostLine.idle.inputs?.map Inputs.cmd = some 0x00000#20 ∧
  ∀ k b : Nat, k ≤ 1023 → b ≤ 255 →
    (∃ p : Inputs, (HostLine.enc k b).inputs? = some p ∧ p.rst = false ∧
      p.cmd = 0x80000#20 ||| (BitVec.ofNat 20 k <<< 8) ||| BitVec.ofNat 20 b ∧
      ∀ s : State, ∃ t : State, step (presentNext p s) = .next t ∧
        t.dout = transformBlock (BitVec.ofNat 10 k) (BitVec.ofNat 8 b) false) ∧
    (∃ p : Inputs, (HostLine.dec k b).inputs? = some p ∧ p.rst = false ∧
      p.cmd = 0xC0000#20 ||| (BitVec.ofNat 20 k <<< 8) ||| BitVec.ofNat 20 b ∧
      ∀ s : State, ∃ t : State, step (presentNext p s) = .next t ∧
        t.dout = transformBlock (BitVec.ofNat 10 k) (BitVec.ofNat 8 b) true)

/-- A written operand out of range is rejected and never presented (R33, R90); that the rejection is
`none` is the model's own (log entry 9). -/
def Obligations.OutOfRangeLinesAreRejected : Prop :=
  ∀ k b : Nat, (1023 < k ∨ 255 < b) →
    (HostLine.enc k b).inputs? = none ∧ (HostLine.dec k b).inputs? = none

/-- R39: decode and encode agree in both directions, and `RESET` overrides the bundle. -/
def Obligations.DecodeAndEncodeAgree : Prop :=
  (∀ i : Instr, WellFormed i = true → decode (encode i) = i) ∧
  (∀ c : Cmd, c.getLsbD 19 = true → encode (decode c) = c) ∧
  (∀ c : Cmd, c.getLsbD 19 = false → decode c = .idle ∧ encode (decode c) = 0x00000#20) ∧
  (∀ c : Cmd, c.getLsbD 19 = true → c.getLsbD 18 = false →
    decode c = .enc (c.extractLsb' 8 10) (c.extractLsb' 0 8)) ∧
  (∀ c : Cmd, c.getLsbD 19 = true → c.getLsbD 18 = true →
    decode c = .dec (c.extractLsb' 8 10) (c.extractLsb' 0 8)) ∧
  (∀ (k : Key) (b : Block),
    encode (.enc k b) = 0x80000#20 ||| (k.setWidth 20 <<< 8) ||| b.setWidth 20 ∧
    encode (.dec k b) = 0xC0000#20 ||| (k.setWidth 20 <<< 8) ||| b.setWidth 20) ∧
  (∀ c : Cmd, decodeEvent true c = .reset ∧ decodeEvent false c = .command (decode c))

/-- R40: the encoding examples of the spec. -/
def Obligations.EncodingExamples : Prop :=
  encode (.enc 642#10 0x97#8) = 0xA8297#20 ∧ decode 0xA8297#20 = .enc 642#10 0x97#8 ∧
  encode (.dec 642#10 0x38#8) = 0xE8238#20 ∧ decode 0xE8238#20 = .dec 642#10 0x38#8 ∧
  encode (.enc 509#10 165#8) = 0x9FDA5#20 ∧ decode 0x9FDA5#20 = .enc 509#10 165#8 ∧
  encode (.enc 0#10 0#8) = 0x80000#20 ∧ decode 0x80000#20 = .enc 0#10 0#8 ∧
  encode (.dec 1023#10 255#8) = 0xFFFFF#20 ∧ decode 0xFFFFF#20 = .dec 1023#10 255#8 ∧
  encode .idle = 0x00000#20 ∧ decode 0x00000#20 = .idle ∧ decode 0x555AA#20 = .idle

/-! ## 40_bitvec_permutations.md -/

/-- R41, R42, R43: bit-vector conversion and its round trip, at every width. -/
def Obligations.BitVectorConversionRoundTrip : Prop :=
  (∀ (w : Nat) (v : BitVec w), (toBits v).length = w ∧
    ∀ i : Nat, i < w → (toBits v)[i]? = some ((v.toNat >>> (w - 1 - i)) % 2 == 1)) ∧
  (∀ bits : List Bool, (fromBits bits.length bits).toNat =
    ((List.range bits.length).map
      (fun i => (bits.getD i false).toNat * 2 ^ (bits.length - 1 - i))).sum) ∧
  (∀ (w : Nat) (v : BitVec w), fromBits w (toBits v) = v) ∧
  (∀ bits : List Bool, toBits (fromBits bits.length bits) = bits)

/-- Output position `i` takes input position `t_i`, for every table (R44). R44 takes only entries from 1
to `m`; for a table with an entry outside that range the equations say what the MODEL'S CHOICE of log
entry 11 reads there (entry 0 reads false, an entry above `m` reads bit 0), and nothing of R44. -/
def Obligations.PermuteTakesTablePositions : Prop :=
  (∀ (n m : Nat) (table : Vector Nat n) (x : BitVec m) (i : Fin n),
    pos (permute table x) (i.val + 1) = pos x (table.get i) ∧
    (permute table x).getLsbD (n - (i.val + 1)) = x.getLsbD (m - table.get i)) ∧
  (∀ (n m : Nat) (table : Vector Nat n) (x : BitVec m),
    permute table x = fromBits n (table.toList.map (fun t => x.getLsbD (m - t)))) ∧
  permute #v[2, 4, 3, 1] 0b0011#4 = 0b0110#4

/-- R45: P10. -/
def Obligations.P10Wiring : Prop :=
  (∀ x : BitVec 10, p10 x = permute #v[3, 5, 2, 7, 4, 10, 1, 9, 8, 6] x ∧
    ∀ q ∈ [(9, 7), (8, 5), (7, 8), (6, 3), (5, 6), (4, 0), (3, 9), (2, 1), (1, 2), (0, 4)],
      (p10 x).getLsbD q.1 = x.getLsbD q.2) ∧
  Function.Bijective p10 ∧
  [0x200#10, 0x100#10, 0x080#10, 0x040#10, 0x020#10, 0x010#10, 0x008#10, 0x004#10, 0x002#10,
      0x001#10].map p10 =
    [0x008#10, 0x080#10, 0x200#10, 0x020#10, 0x100#10, 0x001#10, 0x040#10, 0x002#10, 0x004#10, 0x010#10] ∧
  p10 0x000#10 = 0x000#10 ∧ p10 0x3FF#10 = 0x3FF#10 ∧
  p10 0b1010000010#10 = 0b1000001100#10 ∧ p10 0b0111111101#10 = 0b1111110011#10

/-- R46: P8. -/
def Obligations.P8Wiring : Prop :=
  (∀ x : BitVec 10, p8 x = permute #v[6, 3, 7, 4, 8, 5, 10, 9] x ∧
    ∀ q ∈ [(7, 4), (6, 7), (5, 3), (4, 6), (3, 2), (2, 5), (1, 0), (0, 1)],
      (p8 x).getLsbD q.1 = x.getLsbD q.2) ∧
  Function.Surjective p8 ∧
  (∀ x y : BitVec 10, p8 x = p8 y ↔ x.extractLsb' 0 8 = y.extractLsb' 0 8) ∧
  [0x200#10, 0x100#10, 0x080#10, 0x040#10, 0x020#10, 0x010#10, 0x008#10, 0x004#10, 0x002#10,
      0x001#10].map p8 =
    [0x00#8, 0x00#8, 0x40#8, 0x10#8, 0x04#8, 0x80#8, 0x20#8, 0x08#8, 0x01#8, 0x02#8] ∧
  p8 0x000#10 = 0x00#8 ∧ p8 0x3FF#10 = 0xFF#8 ∧ p8 0x300#10 = 0x00#8 ∧
  p8 0b0000111000#10 = 0b10100100#8 ∧ p8 0b0010000011#10 = 0b01000011#8

/-- R47, R50: P4 and EP. -/
def Obligations.P4AndEpWiring : Prop :=
  (∀ x : HalfBlock, p4 x = permute #v[2, 4, 3, 1] x ∧
    ∀ q ∈ [(3, 2), (2, 0), (1, 1), (0, 3)], (p4 x).getLsbD q.1 = x.getLsbD q.2) ∧
  Function.Bijective p4 ∧
  (List.range 16).map (fun x => (p4 (BitVec.ofNat 4 x)).toNat) =
    [0x0, 0x4, 0x2, 0x6, 0x8, 0xC, 0xA, 0xE, 0x1, 0x5, 0x3, 0x7, 0x9, 0xD, 0xB, 0xF] ∧
  (∀ x : HalfBlock, ep x = permute #v[4, 1, 2, 3, 2, 3, 4, 1] x ∧
    ∀ q ∈ [(7, 0), (6, 3), (5, 2), (4, 1), (3, 2), (2, 1), (1, 0), (0, 3)],
      (ep x).getLsbD q.1 = x.getLsbD q.2) ∧
  Function.Injective ep ∧ ¬ Function.Surjective ep ∧
  (List.range 16).map (fun x => (ep (BitVec.ofNat 4 x)).toNat) =
    [0x00, 0x82, 0x14, 0x96, 0x28, 0xAA, 0x3C, 0xBE, 0x41, 0xC3, 0x55, 0xD7, 0x69, 0xEB, 0x7D, 0xFF]

/-- R48, R49: IP and IP⁻¹. -/
def Obligations.IpAndIpInvWiring : Prop :=
  (∀ x : Block, ip x = permute #v[2, 6, 3, 1, 4, 8, 5, 7] x ∧
    ∀ q ∈ [(7, 6), (6, 2), (5, 5), (4, 7), (3, 4), (2, 0), (1, 3), (0, 1)],
      (ip x).getLsbD q.1 = x.getLsbD q.2) ∧
  [0x80#8, 0x40#8, 0x20#8, 0x10#8, 0x08#8, 0x04#8, 0x02#8, 0x01#8, 0x00#8, 0xFF#8, 0x97#8, 0xA5#8,
      0x5A#8, 0x0F#8, 0xF0#8, 0x72#8].map ip =
    [0x10#8, 0x80#8, 0x20#8, 0x08#8, 0x02#8, 0x40#8, 0x01#8, 0x04#8, 0x00#8, 0xFF#8, 0x5D#8, 0x74#8,
      0x8B#8, 0x47#8, 0xB8#8, 0xA9#8] ∧
  (∀ x : Block, ipInv x = permute #v[4, 1, 3, 5, 7, 2, 8, 6] x ∧
    ∀ q ∈ [(7, 4), (6, 7), (5, 5), (4, 3), (3, 1), (2, 6), (1, 0), (0, 2)],
      (ipInv x).getLsbD q.1 = x.getLsbD q.2) ∧
  [0x80#8, 0x40#8, 0x20#8, 0x10#8, 0x08#8, 0x04#8, 0x02#8, 0x01#8, 0x00#8, 0xFF#8, 0x2A#8, 0x41#8,
      0x5D#8, 0xA5#8, 0x0F#8, 0xF0#8].map ipInv =
    [0x40#8, 0x04#8, 0x20#8, 0x80#8, 0x10#8, 0x01#8, 0x08#8, 0x02#8, 0x00#8, 0xFF#8, 0x38#8, 0x06#8,
      0x97#8, 0x63#8, 0x1B#8, 0xE4#8]

/-- R51: IP and IP⁻¹ are mutual inverses, as functions and position by position. -/
def Obligations.IpAndIpInvAreInverse : Prop :=
  (∀ x : Block, ipInv (ip x) = x) ∧ (∀ x : Block, ip (ipInv x) = x) ∧
  ∀ i : Fin 8, ipInvTable.toList[ipTable.get i - 1]? = some (i.val + 1)

/-- R52: which primitives are bijections; P8 is onto and four-to-one, EP one-to-one and not onto. -/
def Obligations.PermutationClassification : Prop :=
  Function.Bijective p10 ∧ Function.Bijective p4 ∧ Function.Bijective ip ∧
  Function.Bijective ipInv ∧
  Function.Surjective p8 ∧
  (∀ y : RoundKey, ∃ low : BitVec 8, ∀ x : BitVec 10, p8 x = y ↔
    ∃ top : BitVec 2, x = (top.setWidth 10 <<< 8) ||| low.setWidth 10) ∧
  Function.Injective ep ∧ ¬ Function.Surjective ep

/-- Every wiring commutes with XOR and keeps 0, for every table (R54). For a table with an entry outside
1 to `m`, which R44 excludes, `permute` is the MODEL'S CHOICE (log entry 11). -/
def Obligations.PermuteCommutesWithXor : Prop :=
  ∀ (n m : Nat) (table : Vector Nat n) (a b : BitVec m),
    permute table (a ^^^ b) = permute table a ^^^ permute table b ∧
    permute table (0 : BitVec m) = 0

/-! ## 41_shift_sbox.md -/

/-- R55, R56: LS1 and LS2, by formula, by bits and by table. -/
def Obligations.LeftShiftsRotate : Prop :=
  (∀ v : HalfKey, (ls1 v).toNat = ((v.toNat <<< 1) ||| (v.toNat >>> 4)) &&& 0b11111 ∧
    toBits (ls1 v) = [vec v 1, vec v 2, vec v 3, vec v 4, vec v 0] ∧
    ∀ q ∈ [(4, 3), (3, 2), (2, 1), (1, 0), (0, 4)], (ls1 v).getLsbD q.1 = v.getLsbD q.2) ∧
  (List.range 32).map (fun v => (ls1 (BitVec.ofNat 5 v)).toNat) =
    [0, 2, 4, 6, 8, 10, 12, 14, 16, 18, 20, 22, 24, 26, 28, 30,
     1, 3, 5, 7, 9, 11, 13, 15, 17, 19, 21, 23, 25, 27, 29, 31] ∧
  (∀ v : HalfKey, (ls2 v).toNat = ((v.toNat <<< 2) ||| (v.toNat >>> 3)) &&& 0b11111 ∧
    toBits (ls2 v) = [vec v 2, vec v 3, vec v 4, vec v 0, vec v 1] ∧
    ∀ q ∈ [(4, 2), (3, 1), (2, 0), (1, 4), (0, 3)], (ls2 v).getLsbD q.1 = v.getLsbD q.2) ∧
  (List.range 32).map (fun v => (ls2 (BitVec.ofNat 5 v)).toNat) =
    [0, 4, 8, 12, 16, 20, 24, 28, 1, 5, 9, 13, 17, 21, 25, 29,
     2, 6, 10, 14, 18, 22, 26, 30, 3, 7, 11, 15, 19, 23, 27, 31]

/-- R57: the laws of the rotations. -/
def Obligations.RotationLaws : Prop :=
  (∀ v : HalfKey, ls2 v = ls1 (ls1 v) ∧ ls2 (ls1 v) = ls1 (ls2 v) ∧
    ls1 (ls1 (ls1 (ls1 (ls1 v)))) = v ∧
    (toBits (ls1 v)).count true = (toBits v).count true ∧
    (toBits (ls2 v)).count true = (toBits v).count true) ∧
  (List.range 32).map (fun v => (ls2 (ls1 (BitVec.ofNat 5 v))).toNat) =
    [0, 8, 16, 24, 1, 9, 17, 25, 2, 10, 18, 26, 3, 11, 19, 27,
     4, 12, 20, 28, 5, 13, 21, 29, 6, 14, 22, 30, 7, 15, 23, 31] ∧
  Function.Bijective ls1 ∧ Function.Bijective ls2 ∧
  (∀ a b : HalfKey, ls1 (a ^^^ b) = ls1 a ^^^ ls1 b ∧ ls2 (a ^^^ b) = ls2 a ^^^ ls2 b)

/-- R58: the row from the outermost bits, the column from the innermost, leftmost bit high. -/
def Obligations.SboxIndexFormation : Prop :=
  ∀ x : HalfBlock,
    (sboxRow x).toNat = 2 * (x.getLsbD 3).toNat + (x.getLsbD 0).toNat ∧
    (sboxCol x).toNat = 2 * (x.getLsbD 2).toNat + (x.getLsbD 1).toNat

/-- R59, R60: S0 and S1 by row and column and by input value. -/
def Obligations.SboxTables : Prop :=
  (∀ x : HalfBlock,
    (s0 x).toNat = (([[1, 0, 3, 2], [3, 2, 1, 0], [0, 2, 1, 3], [3, 1, 3, 2]] : List (List Nat)).getD
      (sboxRow x).toNat []).getD (sboxCol x).toNat 4 ∧
    (s1 x).toNat = (([[0, 1, 2, 3], [2, 0, 1, 3], [3, 0, 1, 0], [2, 1, 0, 3]] : List (List Nat)).getD
      (sboxRow x).toNat []).getD (sboxCol x).toNat 4) ∧
  (List.range 16).map (fun x => (s0 (BitVec.ofNat 4 x)).toNat) =
    [1, 3, 0, 2, 3, 1, 2, 0, 0, 3, 2, 1, 1, 3, 3, 2] ∧
  (List.range 16).map (fun x => (s1 (BitVec.ofNat 4 x)).toNat) =
    [0, 2, 1, 0, 2, 1, 3, 3, 3, 2, 0, 1, 1, 0, 0, 3]

/-- R61, R62: the packed ROM view of each box, and the properties of the boxes. -/
def Obligations.SboxRomAndProperties : Prop :=
  (∀ x : HalfBlock, s0 x = romEntry 0x72D8397E#32 x ∧ s1 x = romEntry 0x249FE143#32 x) ∧
  (List.range 4).map (fun v => (List.range 16).countP (fun x => (s0 (BitVec.ofNat 4 x)).toNat == v)) =
    [3, 4, 4, 5] ∧
  (List.range 4).map (fun v => (List.range 16).countP (fun x => (s1 (BitVec.ofNat 4 x)).toNat == v)) =
    [5, 4, 3, 4] ∧
  ¬ Function.Injective s0 ∧ ¬ Function.Injective s1 ∧
  Function.Surjective s0 ∧ Function.Surjective s1 ∧
  (∃ a b : HalfBlock, s0 (a ^^^ b) ≠ s0 a ^^^ s0 b) ∧
  (∃ a b : HalfBlock, s1 (a ^^^ b) ≠ s1 a ^^^ s1 b)

/-! ## 42_key_schedule.md -/

/-- R69: the whole key scheduler by its five steps, and the composed wiring. -/
def Obligations.KeygenFiveStepsAndComposedWiring : Prop :=
  (∀ key : Key,
    let l0 : HalfKey := (p10 key).extractLsb' 5 5
    let r0 : HalfKey := (p10 key).extractLsb' 0 5
    let l1 := ls1 l0
    let r1 := ls1 r0
    let l2 := ls2 l1
    let r2 := ls2 r1
    keygen key = (p8 (l1 ++ r1), p8 (l2 ++ r2))) ∧
  (∀ key : Key, keygen key =
    (permute #v[1, 7, 9, 4, 8, 3, 10, 6] key, permute #v[8, 3, 6, 5, 10, 2, 9, 1] key)) ∧
  (∀ key : Key,
    (∀ q ∈ [(7, 9), (6, 3), (5, 1), (4, 6), (3, 2), (2, 7), (1, 0), (0, 4)],
      (keygen key).1.getLsbD q.1 = key.getLsbD q.2) ∧
    (∀ q ∈ [(7, 2), (6, 7), (5, 4), (4, 5), (3, 0), (2, 8), (1, 1), (0, 9)],
      (keygen key).2.getLsbD q.1 = key.getLsbD q.2)) ∧
  keygen 0b1010000010#10 = (0b10100100#8, 0b01000011#8) ∧
  keygen 0b0111111101#10 = (0b01011111#8, 0b11111100#8)

/-- R70: the key pairs of all keys. Four keys share a K1 (they differ in bits 8 and 5 only), four
share a K2 (bits 6 and 3), no two share both. -/
def Obligations.KeygenIsOneToOne : Prop :=
  Function.Injective keygen ∧
  (∀ k k' : Key, (keygen k).1 = (keygen k').1 ↔ k &&& 0x2DF#10 = k' &&& 0x2DF#10) ∧
  (∀ k k' : Key, (keygen k).2 = (keygen k').2 ↔ k &&& 0x3B7#10 = k' &&& 0x3B7#10) ∧
  (∀ v : RoundKey, (∃ k, (keygen k).1 = v) ∧ (∃ k, (keygen k).2 = v)) ∧
  (∀ a b : Key, keygen (a ^^^ b) =
    ((keygen a).1 ^^^ (keygen b).1, (keygen a).2 ^^^ (keygen b).2))

/-- R70: the corner keys, the single-bit keys, and the eight keys with `K1 = K2`. -/
def Obligations.KeygenCornerKeys : Prop :=
  keygen 0#10 = (0x00#8, 0x00#8) ∧ keygen 1023#10 = (0xFF#8, 0xFF#8) ∧
  keygen 96#10 = (0x10#8, 0x10#8) ∧
  [512#10, 256#10, 128#10, 64#10, 32#10, 16#10, 8#10, 4#10, 2#10, 1#10].map keygen =
    [(0x80#8, 0x01#8), (0x00#8, 0x04#8), (0x04#8, 0x40#8), (0x10#8, 0x00#8), (0x00#8, 0x10#8),
     (0x01#8, 0x20#8), (0x40#8, 0x00#8), (0x08#8, 0x80#8), (0x20#8, 0x02#8), (0x02#8, 0x08#8)] ∧
  (∀ key : Key, (keygen key).1 = (keygen key).2 ↔
    key ∈ [0#10, 96#10, 392#10, 488#10, 535#10, 631#10, 927#10, 1023#10])

/-! ## 43_round_function.md -/

/-- R71: F by its steps, and its tables for four round keys. -/
def Obligations.RoundMapping : Prop :=
  (∀ (r : HalfBlock) (sk : RoundKey),
    let x := ep r ^^^ sk
    let a : HalfBlock := x.extractLsb' 4 4
    let b : HalfBlock := x.extractLsb' 0 4
    roundF r sk = p4 (((s0 a).setWidth 4 <<< 2) ||| (s1 b).setWidth 4)) ∧
  (∀ (r : HalfBlock) (sk : RoundKey), roundF r sk = roundF 0#4 (sk ^^^ ep r)) ∧
  (List.range 16).map (fun r => (roundF (BitVec.ofNat 4 r) 0x00#8).toNat) =
    [0x8, 0x4, 0xB, 0xF, 0x6, 0x1, 0x5, 0x8, 0xB, 0x8, 0xC, 0xF, 0x3, 0xD, 0x0, 0x7] ∧
  (List.range 16).map (fun r => (roundF (BitVec.ofNat 4 r) 0xFF#8).toNat) =
    [0x7, 0x0, 0xD, 0x3, 0xF, 0xC, 0x8, 0xB, 0x8, 0x5, 0x1, 0x6, 0xF, 0xB, 0x4, 0x8] ∧
  (List.range 16).map (fun r => (roundF (BitVec.ofNat 4 r) 0xA4#8).toNat) =
    [0x3, 0x6, 0x8, 0x5, 0x4, 0x8, 0xF, 0x9, 0xD, 0x7, 0x3, 0x0, 0x8, 0xF, 0xB, 0xC] ∧
  (List.range 16).map (fun r => (roundF (BitVec.ofNat 4 r) 0x43#8).toNat) =
    [0x9, 0xA, 0xE, 0xD, 0x5, 0xB, 0x6, 0x1, 0xC, 0x0, 0xF, 0xB, 0x0, 0x7, 0x1, 0xC] ∧
  (∀ r : HalfBlock, roundF r 0x00#8 = 0x8#4 ↔ r ∈ [0x0#4, 0x7#4, 0x9#4])

/-- R72: fk changes the left half only, and flips the same bits of any left half. -/
def Obligations.FkTransformsLeftHalfOnly : Prop :=
  (∀ (l r : HalfBlock) (sk : RoundKey),
    fk { left := l, right := r } sk = { left := l ^^^ roundF r sk, right := r }) ∧
  (∀ (l l' r : HalfBlock) (sk : RoundKey),
    (fk { left := l, right := r } sk).left ^^^ l = (fk { left := l', right := r } sk).left ^^^ l') ∧
  fk { left := 0b0101#4, right := 0b1101#4 } 0xA4#8 = { left := 0b1010#4, right := 0b1101#4 } ∧
  fk { left := 0b0000#4, right := 0b0000#4 } 0x00#8 = { left := 0b1000#4, right := 0b0000#4 } ∧
  fk { left := 0b1111#4, right := 0b1111#4 } 0xFF#8 = { left := 0b0111#4, right := 0b1111#4 } ∧
  fk { left := 0b0111#4, right := 0b0100#4 } 0x5F#8 = { left := 0b0001#4, right := 0b0100#4 }

/-- R73, R75: the half-swap, on pairs and on 8-bit values, and that it is its own inverse. -/
def Obligations.HalfSwap : Prop :=
  (∀ l r : HalfBlock, sw { left := l, right := r } = { left := r, right := l }) ∧
  (∀ v : Block, swBlock v =
    ((v.extractLsb' 0 4).setWidth 8 <<< 4) ||| (v.extractLsb' 4 4).setWidth 8) ∧
  (∀ p : SplitPair 4, sw (sw p) = p)

/-- R74: fk is its own inverse under a fixed round key, so a bijection on pairs. -/
def Obligations.FkIsItsOwnInverse : Prop :=
  (∀ (p : SplitPair 4) (sk : RoundKey), fk (fk p sk) sk = p) ∧
  (∀ sk : RoundKey, Function.Bijective (fun p => fk p sk))

/-! ## 44_cipher_commands.md -/

/-- R78, R79: the stages of the operation in order; the direction selects the order of the round keys
and nothing else. -/
def Obligations.TransformBlockStages : Prop :=
  (∀ (key : Key) (block : Block) (decrypt : Bool),
    let ka := if decrypt = true then (keygen key).2 else (keygen key).1
    let kb := if decrypt = true then (keygen key).1 else (keygen key).2
    let l0 : HalfBlock := (ip block).extractLsb' 4 4
    let r0 : HalfBlock := (ip block).extractLsb' 0 4
    let first := fk { left := l0, right := r0 } ka
    let second := fk (sw first) kb
    transformBlock key block decrypt = ipInv (second.left ++ second.right)) ∧
  transformBlock 642#10 0x97#8 false = 0x38#8

/-- R80: the closed form of both directions, with the composed wiring of R69 for the round keys. -/
def Obligations.TransformBlockClosedForm : Prop :=
  ∀ key : Key,
    let k1 := permute #v[1, 7, 9, 4, 8, 3, 10, 6] key
    let k2 := permute #v[8, 3, 6, 5, 10, 2, 9, 1] key
    (keygen key = (k1, k2)) ∧
    (fun b => transformBlock key b false) = ipInv ∘ fkBlock k2 ∘ swBlock ∘ fkBlock k1 ∘ ip ∧
    (fun b => transformBlock key b true) = ipInv ∘ fkBlock k1 ∘ swBlock ∘ fkBlock k2 ∘ ip

/-- R81: ENC always completes; `DOUT` and `VALID` are written and nothing else is. The second clause
says it from the encoding, with `rst = 0`, at one edge; that the sample list and the edge number
move there is the MODEL'S CHOICE (log entries 1 and 2). -/
def Obligations.EncWritesResult : Prop :=
  (∀ (k : Key) (b : Block) (s : State),
    exec (.enc k b) s = .next
      { dout := transformBlock k b false, valid := true, inputs := s.inputs, edge := s.edge,
        host := s.host }) ∧
  (∀ (k : Key) (b : Block) (s : State),
    step (presentNext (Inputs.ofCmd (encode (.enc k b))) s) = .next
      { dout := transformBlock k b false, valid := true, inputs := s.inputs.tail,
        edge := s.edge + 1, host := s.host }) ∧
  transformBlock 642#10 0x97#8 false = 0x38#8 ∧ transformBlock 0#10 0x00#8 false = 0xF0#8 ∧
  transformBlock 1023#10 0xFF#8 false = 0x0F#8 ∧ transformBlock 509#10 165#8 false = 0x06#8

/-- R82: DEC always completes; `DOUT` and `VALID` are written and nothing else is. The second clause
says it from the encoding, with `rst = 0`, at one edge; that the sample list and the edge number
move there is the MODEL'S CHOICE (log entries 1 and 2). -/
def Obligations.DecWritesResult : Prop :=
  (∀ (k : Key) (b : Block) (s : State),
    exec (.dec k b) s = .next
      { dout := transformBlock k b true, valid := true, inputs := s.inputs, edge := s.edge,
        host := s.host }) ∧
  (∀ (k : Key) (b : Block) (s : State),
    step (presentNext (Inputs.ofCmd (encode (.dec k b))) s) = .next
      { dout := transformBlock k b true, valid := true, inputs := s.inputs.tail,
        edge := s.edge + 1, host := s.host }) ∧
  transformBlock 642#10 0x38#8 true = 0x97#8 ∧ transformBlock 509#10 0x06#8 true = 0xA5#8 ∧
  transformBlock 509#10 0x00#8 true = 0x87#8

/-- R83: IDLE always completes and changes nothing, whatever the ignored ports hold, and any number of
idle edges leaves `DOUT` and `VALID` as they are. That a run uses up exactly its samples and counts
their edges is the MODEL'S CHOICE (log entries 1 and 2). -/
def Obligations.IdleHoldsState : Prop :=
  (∀ s : State, exec .idle s = .next s) ∧
  (∀ (xs rest : List Inputs) (s : State),
    s.inputs = xs ++ rest → (∀ p ∈ xs, p.rst = false ∧ p.start = false) →
    Sys2Proof.core.run xs.length s = .next
      ({ dout := s.dout, valid := s.valid, inputs := rest, edge := s.edge + xs.length,
         host := s.host } : State))

/-- R84: the two directions are inverse to each other, as functions and as two commands in a row. -/
def Obligations.DecryptUndoesEncrypt : Prop :=
  (∀ (k : Key) (b : Block), transformBlock k (transformBlock k b false) true = b) ∧
  (∀ (k : Key) (b : Block), transformBlock k (transformBlock k b true) false = b) ∧
  (∀ (k : Key) (b : Block) (s : State), ∃ t u : State,
    exec (.enc k b) s = .next t ∧ exec (.dec k t.dout) t = .next u ∧ u.dout = b) ∧
  (∀ (k : Key) (b : Block) (s : State), ∃ t u : State,
    exec (.dec k b) s = .next t ∧ exec (.enc k t.dout) t = .next u ∧ u.dout = b)

/-- R85, R11: a command's result is a function of its own operands, never of the state before. -/
def Obligations.ResultIgnoresEarlierState : Prop :=
  ∀ (s s' : State) (d : Bool) (k : Key) (b : Block),
    ∃ t t' : State, step (presentNext (present d k b) s) = .next t ∧
      step (presentNext (present d k b) s') = .next t' ∧
      t.outputs = t'.outputs ∧ t.outputs = { dout := transformBlock k b d, valid := true }

/-- The edge cases of R86, with the values of 95_test_vectors.md section 4. -/
def Obligations.EdgeKeysAndBlocks : Prop :=
  [(0#10, 0x00#8), (0#10, 0xFF#8), (1023#10, 0x00#8), (1023#10, 0xFF#8),
   (509#10, 0x00#8), (509#10, 0xFF#8), (642#10, 0x00#8), (642#10, 0xFF#8)].map (fun q =>
      [transformBlock q.1 q.2 false, transformBlock q.1 q.2 true,
       transformBlock q.1 (transformBlock q.1 q.2 false) true,
       transformBlock q.1 (transformBlock q.1 q.2 true) false]) =
    [[0xF0#8, 0xF0#8, 0x00#8, 0x00#8], [0x14#8, 0x14#8, 0xFF#8, 0xFF#8],
     [0xEB#8, 0xEB#8, 0x00#8, 0x00#8], [0x0F#8, 0x0F#8, 0xFF#8, 0xFF#8],
     [0x39#8, 0x87#8, 0x00#8, 0x00#8], [0xDD#8, 0x0F#8, 0xFF#8, 0xFF#8],
     [0xCE#8, 0xB6#8, 0x00#8, 0x00#8], [0x2A#8, 0x6A#8, 0xFF#8, 0xFF#8]]

/-- R87, first part: under every key both directions are bijections on blocks, and for a key with
`K1 = K2` they are one function, its own inverse. -/
def Obligations.EncryptionIsBijective : Prop :=
  (∀ (k : Key) (d : Bool), Function.Bijective (fun b => transformBlock k b d)) ∧
  (∀ k : Key, (keygen k).1 = (keygen k).2 → ∀ b : Block,
    transformBlock k b false = transformBlock k b true ∧
    transformBlock k (transformBlock k b false) false = b)

/-- R87, second part: for every other key the two directions differ and encryption is not its own
inverse. -/
def Obligations.UnequalRoundKeysGiveUnequalDirections : Prop :=
  ∀ k : Key, (keygen k).1 ≠ (keygen k).2 →
    (∃ b : Block, transformBlock k b false ≠ transformBlock k b true) ∧
    (∃ b : Block, transformBlock k (transformBlock k b false) false ≠ b)

/-- R87, third part: the 1024 keys give 1024 different encryption functions. -/
def Obligations.EncryptionFunctionDeterminesKey : Prop :=
  ∀ k k' : Key, (∀ b : Block, transformBlock k b false = transformBlock k' b false) → k = k'

/-- The stream use of R88 with R85: one command per byte gives the bytes' results in the same order,
and a second pass in the other direction gives the bytes back. -/
def Obligations.StreamIsEcbAndRecovers : Prop :=
  ∀ (d : Bool) (k : Key) (bytes : List Block) (rest : List Inputs) (s : State),
    s.inputs = bytes.map (present d k) ++ rest →
    trace bytes.length s = bytes.map (fun b => { dout := transformBlock k b d, valid := true }) ∧
    ∀ (rest' : List Inputs) (s' : State),
      s'.inputs = ((trace bytes.length s).map Outputs.dout).map (present (!d) k) ++ rest' →
      (trace bytes.length s').map Outputs.dout = bytes

/-! ## 60_exceptions.md and 70_reset_and_hazards.md -/

/-- R89: no command and no run of any length faults or is refused. -/
def Obligations.NothingFaultsOrIsRefused : Prop :=
  (∀ (i : Instr) (s : State), ∃ t : State, exec i s = .next t) ∧
  (∀ (n : Nat) (s : State), ∃ t : State, Sys2Proof.core.run n s = .next t)

/-- Instances share nothing (R96): what one does at an edge depends on its own state and its own host
only. That a system is a list of states stepping at one edge, and that an instance's host is numbered
by its place, is the MODEL'S CHOICE (log entries 10 and 14). -/
def Obligations.InstancesAreIndependent : Prop :=
  ∀ (cores cores' : List State) (i : Nat), cores[i]? = cores'[i]? →
    (systemStep cores)[i]? = (systemStep cores')[i]? ∧
    (systemStep cores)[i]? = cores[i]?.map (fun s => step (drivenBy i s))

/-- R99, R92: reset at an edge gives the reset values whatever the other ports hold, at any edge and for
any number of consecutive edges; and the first command after reset behaves as any later one. That
the sample list has lost the discarded sample is how the model expresses "not deferred"; the moved
list and edge number are the MODEL'S CHOICE (log entries 1 and 2). -/
def Obligations.ResetWinsOverCommand : Prop :=
  (∀ s : State, (sample s).rst = true →
    step s = .next
      { dout := 0x00#8, valid := false, inputs := s.inputs.tail, edge := s.edge + 1,
        host := s.host }) ∧
  (∀ (xs rest : List Inputs) (s : State),
    s.inputs = xs ++ rest → xs ≠ [] → (∀ p ∈ xs, p.rst = true) →
    Sys2Proof.core.run xs.length s = .next
      ({ dout := 0x00#8, valid := false, inputs := rest, edge := s.edge + xs.length,
         host := s.host } : State)) ∧
  (∀ (p : Inputs) (d : Bool) (k : Key) (b : Block) (rest : List Inputs) (s : State),
    s.inputs = p :: present d k b :: rest → p.rst = true →
    ∃ t : State, Sys2Proof.core.run 2 s = .next t ∧
      t.outputs = { dout := transformBlock k b d, valid := true } ∧ t.inputs = rest)

/-- The latency of R106: a command's result is at the outputs `LATENCY` edges after its sample and is
held there over any number of idle edges. That an edge is one step and that the run uses up exactly
its samples is the MODEL'S CHOICE (log entries 1 and 7). -/
def Obligations.ResultAfterLatencyIsHeld : Prop :=
  ∀ (d : Bool) (k : Key) (b : Block) (idles rest : List Inputs) (s : State),
    s.inputs = present d k b :: idles ++ rest →
    (∀ p ∈ idles, p.rst = false ∧ p.start = false) →
    ∃ t : State, Sys2Proof.core.run (Config.latency + idles.length) s = .next t ∧
      t.outputs = { dout := transformBlock k b d, valid := true } ∧ t.inputs = rest

/-! ## The history of R10, one step at a time -/

/-- R10 before any sample: `State.reset` holds the outputs of the empty history, which are the reset
values 0x00 and 0 (R20). -/
def Obligations.EmptyHistoryGivesResetOutputs : Prop :=
  State.reset.outputs = mostRecent { dout := 0x00#8, valid := false } []

/-- R10 as an invariant, for every state and every history `h` of samples since it held the reset
values, most recent first: if the outputs are those of `h`, a step makes them those of `h` with the
step's own sample in front. -/
def Obligations.StepExtendsHistory : Prop :=
  ∀ (s t : State) (h : List Inputs),
    s.outputs = mostRecent State.reset.outputs h → step s = .next t →
    t.outputs = mostRecent State.reset.outputs (sample s :: h)

/-! ## The product of R96, instance by instance -/

/-- A system is the product of independent copies of R12 (R96): the instance at place `i` moves its own
`DOUT` and `VALID` by R12, on its own list's sample, and where its list has ended on a free sample of
host `i`, which no other place reads. The lists, the edge numbers and the hosts' numbers are the
MODEL'S CHOICE (log entries 1, 2, 10 and 14). -/
def Obligations.SystemIsProductOfPortTables : Prop :=
  ∀ (cores : List State) (i : Nat) (s : State), cores[i]? = some s →
    ∃ t : State, (systemStep cores)[i]? = some (.next t) ∧
      (∀ (p : Inputs) (rest : List Inputs), s.inputs = p :: rest →
        t.outputs = nextOutputs s.outputs p) ∧
      (s.inputs = [] → t.outputs = nextOutputs s.outputs (freeInputs i s.edge)) ∧
      t.inputs = s.inputs.tail ∧ t.edge = s.edge + 1 ∧ t.host = i
end

