-- ==== Sys2Proof/Laws/Bits.lean ====
section
/-! SUPPORT. The bits of the shared operations: every wiring, half and bundle field read one bit at a
time, so that later proofs need not unfold them. -/

namespace Sys2Proof.Laws

open Sys2Proof.Machine

/-- The value of a sequence fits its length (R42). -/
theorem bitsValue_lt (bits : List Bool) : bitsValue bits < 2 ^ bits.length := by
  induction bits with
  | nil => simp [bitsValue]
  | cons b bs ih =>
    have hb : b.toNat * 2 ^ bs.length ≤ 2 ^ bs.length :=
      (Nat.mul_le_mul_right _ b.toNat_le).trans_eq (Nat.one_mul _)
    simp only [bitsValue, List.length_cons, pow_succ]
    omega

/-- Bit number `j` of a sequence's value is its element counted from the right. -/
theorem bitsValue_testBit (bits : List Bool) (j : Nat) :
    (bitsValue bits).testBit j = bits.reverse.getD j false := by
  induction bits with
  | nil => simp [bitsValue]
  | cons b bs ih =>
    have hlt := bitsValue_lt bs
    rw [bitsValue, Nat.mul_comm, Nat.testBit_two_pow_mul_add _ hlt, List.reverse_cons]
    by_cases hj : j < bs.length
    · rw [if_pos hj, ih, List.getD_append _ _ _ _ (by simpa using hj)]
    · rw [if_neg hj, List.getD_append_right _ _ _ _ (by simpa using hj), List.length_reverse]
      rcases Nat.eq_zero_or_pos (j - bs.length) with h | h
      · rw [h]; cases b <;> rfl
      · obtain ⟨k, hk⟩ := Nat.exists_eq_succ_of_ne_zero (Nat.pos_iff_ne_zero.mp h)
        rw [hk]; cases b <;> simp [Nat.testBit_succ]

/-- Bit number `j` of a wiring is the input position that output position `n - j` names (R44). -/
theorem permute_getLsbD {n m : Nat} (table : Vector Nat n) (x : BitVec m) (j : Nat) (h : j < n) :
    (permute table x).getLsbD j = pos x table[n - 1 - j] := by
  have hl : j < (table.toList.map (pos x)).reverse.length := by simpa using h
  simp only [permute, fromBits, BitVec.getLsbD_ofNat, h, decide_true, Bool.true_and,
    bitsValue_testBit, List.getD_eq_getElem _ _ hl, List.getElem_reverse, List.getElem_map,
    List.length_map, Vector.length_toList, Vector.getElem_toList]

/-- The bits of the high-order half (R5). -/
@[simp] theorem split_left_getLsbD {h : Nat} (v : BitVec (h + h)) (j : Nat) :
    (split v).left.getLsbD j = (decide (j < h) && v.getLsbD (h + j)) := by
  simp [split]

/-- The bits of the low-order half (R5). -/
@[simp] theorem split_right_getLsbD {h : Nat} (v : BitVec (h + h)) (j : Nat) :
    (split v).right.getLsbD j = (decide (j < h) && v.getLsbD j) := by
  simp [split]

/-- The bits of a concatenation, the right half in the low-order bits (R5). -/
theorem concat_getLsbD {h : Nat} (p : SplitPair h) (j : Nat) :
    (concat p).getLsbD j = if j < h then p.right.getLsbD j else p.left.getLsbD (j - h) := by
  simp [concat, BitVec.getLsbD_append]

/-- The bits of a bundle: `start`, `decrypt`, `key` and `din` from the left (R32). -/
theorem bundle_getLsbD (start decrypt : Bool) (key : Key) (din : Block) (j : Nat) :
    (bundle start decrypt key din).getLsbD j =
      if j < 8 then din.getLsbD j
      else if j < 18 then key.getLsbD (j - 8)
      else if j = 18 then decrypt
      else if j = 19 then start
      else false := by
  by_cases hj : j < 20
  · interval_cases j <;> simp [bundle, BitVec.getLsbD_of_ge]
  · have h0 : (bundle start decrypt key din).getLsbD j = false :=
      BitVec.getLsbD_of_ge _ _ (by omega)
    rw [h0]
    split_ifs <;> first | rfl | omega

end Sys2Proof.Laws
end

