-- ==== Sys2Proof/Laws/Cipher.lean ====
section
/-! SUPPORT. The small lemmas of the datapath's definitions: what each stage does to each half, and the
order of the round keys. -/

namespace Sys2Proof.Laws

open Sys2Proof.Machine Sys2Proof.Safety

@[simp] theorem onHalves_left {h : Nat} (f : BitVec h → BitVec h) (p : SplitPair h) :
    (onHalves f p).left = f p.left := rfl
@[simp] theorem onHalves_right {h : Nat} (f : BitVec h → BitVec h) (p : SplitPair h) :
    (onHalves f p).right = f p.right := rfl

@[simp] theorem fk_left (p : SplitPair 4) (sk : RoundKey) :
    (fk p sk).left = p.left ^^^ roundF p.right sk := rfl
@[simp] theorem fk_right (p : SplitPair 4) (sk : RoundKey) : (fk p sk).right = p.right := rfl

@[simp] theorem sw_left (p : SplitPair 4) : (sw p).left = p.right := rfl
@[simp] theorem sw_right (p : SplitPair 4) : (sw p).right = p.left := rfl

@[simp] theorem keygen_fst (key : Key) : (keygen key).1 = keyK1 key := rfl
@[simp] theorem keygen_snd (key : Key) : (keygen key).2 = keyK2 key := rfl

@[simp] theorem roundKeys_encrypt (key : Key) : roundKeys key false = (keyK1 key, keyK2 key) := rfl
@[simp] theorem roundKeys_decrypt (key : Key) : roundKeys key true = (keyK2 key, keyK1 key) := rfl

@[simp] theorem present_rst (d : Bool) (k : Key) (b : Block) : (present d k b).rst = false := rfl
@[simp] theorem present_start (d : Bool) (k : Key) (b : Block) : (present d k b).start = true := rfl

/-- The three cases of R12 over the ports, one lemma each. -/
theorem nextOutputs_reset {o : Outputs} {p : Inputs} (h : p.rst = true) :
    nextOutputs o p = { dout := 0x00#8, valid := false } := by
  simp [nextOutputs, h]

theorem nextOutputs_idle {o : Outputs} {p : Inputs} (hr : p.rst = false) (hs : p.start = false) :
    nextOutputs o p = o := by
  simp [nextOutputs, hr, hs]

theorem nextOutputs_command {o : Outputs} {p : Inputs} (hr : p.rst = false) (hs : p.start = true) :
    nextOutputs o p = { dout := transformBlock p.key p.din p.decrypt, valid := true } := by
  simp [nextOutputs, hr, hs]

end Sys2Proof.Laws
end

