-- ==== Sys2Proof/Laws/State.lean ====
section
/-! SUPPORT. One lemma per field per update of the state, so that no later proof unfolds a record
update. -/

namespace Sys2Proof.Laws

open Sys2Proof.Machine

@[simp] theorem setValid_dout (s : State) : (setValid s).dout = s.dout := rfl
@[simp] theorem setValid_valid (s : State) : (setValid s).valid = true := rfl
@[simp] theorem setValid_inputs (s : State) : (setValid s).inputs = s.inputs := rfl
@[simp] theorem setValid_edge (s : State) : (setValid s).edge = s.edge := rfl
@[simp] theorem setValid_host (s : State) : (setValid s).host = s.host := rfl

@[simp] theorem clearValid_dout (s : State) : (clearValid s).dout = s.dout := rfl
@[simp] theorem clearValid_valid (s : State) : (clearValid s).valid = false := rfl
@[simp] theorem clearValid_inputs (s : State) : (clearValid s).inputs = s.inputs := rfl
@[simp] theorem clearValid_edge (s : State) : (clearValid s).edge = s.edge := rfl
@[simp] theorem clearValid_host (s : State) : (clearValid s).host = s.host := rfl

@[simp] theorem writeDout_dout (v : Block) (s : State) : (writeDout v s).dout = v := rfl
@[simp] theorem writeDout_valid (v : Block) (s : State) : (writeDout v s).valid = s.valid := rfl
@[simp] theorem writeDout_inputs (v : Block) (s : State) : (writeDout v s).inputs = s.inputs := rfl
@[simp] theorem writeDout_edge (v : Block) (s : State) : (writeDout v s).edge = s.edge := rfl
@[simp] theorem writeDout_host (v : Block) (s : State) : (writeDout v s).host = s.host := rfl

@[simp] theorem writeResult_dout (v : Block) (s : State) : (writeResult v s).dout = v := rfl
@[simp] theorem writeResult_valid (v : Block) (s : State) : (writeResult v s).valid = true := rfl
@[simp] theorem writeResult_inputs (v : Block) (s : State) :
    (writeResult v s).inputs = s.inputs := rfl
@[simp] theorem writeResult_edge (v : Block) (s : State) : (writeResult v s).edge = s.edge := rfl
@[simp] theorem writeResult_host (v : Block) (s : State) : (writeResult v s).host = s.host := rfl

@[simp] theorem resetCore_dout (s : State) : (resetCore s).dout = 0x00#8 := rfl
@[simp] theorem resetCore_valid (s : State) : (resetCore s).valid = false := rfl
@[simp] theorem resetCore_inputs (s : State) : (resetCore s).inputs = s.inputs := rfl
@[simp] theorem resetCore_edge (s : State) : (resetCore s).edge = s.edge := rfl
@[simp] theorem resetCore_host (s : State) : (resetCore s).host = s.host := rfl

@[simp] theorem nextEdge_dout (s : State) : (nextEdge s).dout = s.dout := rfl
@[simp] theorem nextEdge_valid (s : State) : (nextEdge s).valid = s.valid := rfl
@[simp] theorem nextEdge_inputs (s : State) : (nextEdge s).inputs = s.inputs.tail := rfl
@[simp] theorem nextEdge_edge (s : State) : (nextEdge s).edge = s.edge + 1 := rfl
@[simp] theorem nextEdge_host (s : State) : (nextEdge s).host = s.host := rfl

@[simp] theorem presentNext_dout (p : Inputs) (s : State) : (presentNext p s).dout = s.dout := rfl
@[simp] theorem presentNext_valid (p : Inputs) (s : State) :
    (presentNext p s).valid = s.valid := rfl
@[simp] theorem presentNext_inputs (p : Inputs) (s : State) :
    (presentNext p s).inputs = p :: s.inputs.tail := rfl
@[simp] theorem presentNext_edge (p : Inputs) (s : State) : (presentNext p s).edge = s.edge := rfl
@[simp] theorem presentNext_host (p : Inputs) (s : State) : (presentNext p s).host = s.host := rfl

@[simp] theorem drivenBy_dout (h : Nat) (s : State) : (drivenBy h s).dout = s.dout := rfl
@[simp] theorem drivenBy_valid (h : Nat) (s : State) : (drivenBy h s).valid = s.valid := rfl
@[simp] theorem drivenBy_inputs (h : Nat) (s : State) : (drivenBy h s).inputs = s.inputs := rfl
@[simp] theorem drivenBy_edge (h : Nat) (s : State) : (drivenBy h s).edge = s.edge := rfl
@[simp] theorem drivenBy_host (h : Nat) (s : State) : (drivenBy h s).host = h := rfl
@[simp] theorem drivenBy_outputs (h : Nat) (s : State) : (drivenBy h s).outputs = s.outputs := rfl

@[simp] theorem outputs_dout (s : State) : s.outputs.dout = s.dout := rfl
@[simp] theorem outputs_valid (s : State) : s.outputs.valid = s.valid := rfl

/-- The sample of a state whose list begins with `p`. -/
theorem sample_cons {s : State} {p : Inputs} {rest : List Inputs} (h : s.inputs = p :: rest) :
    sample s = p := by
  simp [sample, h]

/-- The sample of a state whose list has ended is its host's free sample of its edge. -/
theorem sample_nil {s : State} (h : s.inputs = []) : sample s = freeInputs s.host s.edge := by
  simp [sample, h]

@[simp] theorem sample_presentNext (p : Inputs) (s : State) : sample (presentNext p s) = p := rfl

end Sys2Proof.Laws
end

