-- ==== Sys2Proof/Laws/Ops.lean ====
section
/-! SUPPORT. What each shared operation can do, said once: the meanings, the reset event and the step
by the kind of event sampled. -/

namespace Sys2Proof.Laws

open Sys2Proof.Machine

/-- The state a command leaves; no command stops. -/
def afterCommand (i : Instr) (s : State) : State :=
  match i with
  | .idle => s
  | .enc key din => writeResult (transformBlock key din false) s
  | .dec key din => writeResult (transformBlock key din true) s

/-- Every command answers the next state it leaves. -/
theorem exec_eq (i : Instr) (s : State) : exec i s = .next (afterCommand i s) := by
  cases i <;> rfl

/-- A command touches neither the host's samples nor the edge nor the host's number. -/
@[simp] theorem afterCommand_inputs (i : Instr) (s : State) :
    (afterCommand i s).inputs = s.inputs := by
  cases i <;> rfl

@[simp] theorem afterCommand_edge (i : Instr) (s : State) : (afterCommand i s).edge = s.edge := by
  cases i <;> rfl

@[simp] theorem afterCommand_host (i : Instr) (s : State) : (afterCommand i s).host = s.host := by
  cases i <;> rfl

/-- The step at a sample that asks for reset. -/
theorem step_of_reset {s : State} (h : (sample s).event = .reset) :
    step s = .next (resetCore (nextEdge s)) := by
  simp only [step, h]

/-- The step at a sample that asks for a command. -/
theorem step_of_command {s : State} {i : Instr} (h : (sample s).event = .command i) :
    step s = .next (afterCommand i (nextEdge s)) := by
  simp only [step, h, exec_eq]

/-- Inversion: a step that answers `t` took the reset event or ran one command. -/
theorem step_cases {s t : State} (h : step s = .next t) :
    ((sample s).event = .reset ∧ t = resetCore (nextEdge s)) ∨
      ∃ i, (sample s).event = .command i ∧ t = afterCommand i (nextEdge s) := by
  cases he : (sample s).event with
  | reset => exact .inl ⟨rfl, by rw [step_of_reset he] at h; injection h with h; exact h.symm⟩
  | command i =>
    exact .inr ⟨i, rfl, by rw [step_of_command he] at h; injection h with h; exact h.symm⟩

/-- What the instance at place `i` does at an edge: the step of its own state under its own host. -/
theorem systemStep_getElem? (cores : List State) (i : Nat) :
    (systemStep cores)[i]? = cores[i]?.map (fun s => step (drivenBy i s)) := by
  simp [systemStep]

end Sys2Proof.Laws
end

