-- ==== Sys2Proof/Laws/PerInstr.lean ====
section
/-! SUPPORT. The family `OpcodeBits`: the bits of an encoding that select its form (30_encoding.md
R34), one lemma per constructor of `Instr`. -/

namespace Sys2Proof.Laws.OpcodeBits

/-- Bit 19 is 1 exactly for an executing form, bit 18 of one is its direction, and the operands are in
range. -/
def Statement : Instr → Prop
  | .idle => (encode .idle).getLsbD 19 = false ∧ WellFormed .idle = true
  | .enc key din =>
    (encode (.enc key din)).getLsbD 19 = true ∧ (encode (.enc key din)).getLsbD 18 = false ∧
      WellFormed (.enc key din) = true
  | .dec key din =>
    (encode (.dec key din)).getLsbD 19 = true ∧ (encode (.dec key din)).getLsbD 18 = true ∧
      WellFormed (.dec key din) = true

/-- The field widths keep both operands in range (R33). -/
theorem operands_in_range (key : Key) (din : Block) :
    (keyInRange key.toNat && blockInRange din.toNat) = true := by
  have hk := key.isLt
  have hd := din.isLt
  simp only [keyInRange, blockInRange, Bool.and_eq_true, decide_eq_true_eq]
  omega

theorem idle : Statement .idle := by
  refine ⟨by decide, rfl⟩

theorem enc (key : Key) (din : Block) : Statement (.enc key din) :=
  ⟨by rw [encode, bundle_getLsbD]; rfl, by rw [encode, bundle_getLsbD]; rfl, operands_in_range key din⟩

theorem dec (key : Key) (din : Block) : Statement (.dec key din) :=
  ⟨by rw [encode, bundle_getLsbD]; rfl, by rw [encode, bundle_getLsbD]; rfl, operands_in_range key din⟩

end Sys2Proof.Laws.OpcodeBits
end

