-- ==== Sys2Proof/Tests/Slice0.lean ====
section
/-! SUPPORT. Tests with results taken from spec/ (95_test_vectors.md section 7, 30_encoding.md R40), the
smoke test of the operand checks, and for every statement with hypotheses a state and operands that
meet them together. -/

namespace Sys2Proof.Tests

open Sys2Proof.Machine Sys2Proof.Safety

/-- A state with the given outputs whose coming edge samples the bundle `c` with `rst = 0`. -/
def before (dout : Block) (valid : Bool) (c : Cmd) : State :=
  { dout := dout, valid := valid, inputs := [Inputs.ofCmd c], edge := 0, host := 0 }

/-- A state with the given outputs whose coming edge samples the bundle `c` with `rst = 1`. -/
def beforeReset (dout : Block) (valid : Bool) (c : Cmd) : State :=
  { dout := dout, valid := valid, inputs := [{ Inputs.ofCmd c with rst := true }], edge := 0,
    host := 0 }

/-- A valid state facing two idle samples and then a DEC. -/
def idleAhead : State :=
  { dout := 0x38, valid := true,
    inputs := [Inputs.ofCmd 0x00000#20, Inputs.ofCmd 0x555AA#20, Inputs.ofCmd 0xE8238#20], edge := 7,
    host := 0 }

/-- The outputs after one step, where it answers a next state. -/
def outputsAfter (s : State) : Option Outputs :=
  match step s with
  | .next t => some t.outputs
  | .fault _ => none
  | .refused _ => none

/-! ## Decoding, words from R40 and from 95_test_vectors.md section 7 -/

theorem test_decode_idle_all_ignored_ones : decode 0x7FFFF#20 = .idle := by decide

theorem test_decode_enc_smallest : decode 0x80000#20 = .enc 0#10 0#8 := by decide

theorem test_decode_enc_largest : decode 0xBFFFF#20 = .enc 1023#10 255#8 := by decide

theorem test_decode_dec_smallest : decode 0xC0000#20 = .dec 0#10 0#8 := by decide

theorem test_decode_dec_largest : decode 0xFFFFF#20 = .dec 1023#10 255#8 := by decide

/-- Bits 17 to 8, from the left, are the key and bits 7 to 0 the block: `1 0 1010000010 10010111`. -/
theorem test_decode_enc_bit_by_bit :
    decode 0b10101000001010010111#20 = .enc 0b1010000010#10 0b10010111#8 := by decide

theorem test_table_word_enc : decodeTableWord 24 0x9FDA5 = some (.enc 509#10 165#8) := by decide

/-- Four bytes hold bits a 20-bit bundle has not. -/
theorem test_table_word_too_wide : decodeTableWord 24 0x100000 = none := by decide

/-! ## Operand checks (R33, R38, R90) -/

theorem test_enc_key_out_of_range : (HostLine.enc 1024 0).wellFormed = false := by decide

theorem test_enc_block_out_of_range : (HostLine.enc 0 256).wellFormed = false := by decide

theorem test_dec_key_out_of_range : (HostLine.dec 1024 0).wellFormed = false := by decide

theorem test_dec_block_out_of_range : (HostLine.dec 0 256).wellFormed = false := by decide

theorem test_boundary_operands_in_range : (HostLine.enc 1023 255).wellFormed = true := by decide

theorem test_command_operands_in_range : WellFormed (.dec 1023#10 255#8) = true := by decide

/-! ## One step, rows of 95_test_vectors.md section 7 -/

theorem test_enc_642 :
    outputsAfter (before 0x00 false 0xA8297#20) = some { dout := 0x38, valid := true } := by decide

theorem test_enc_341 :
    outputsAfter (before 0xEB true 0x9554B#20) = some { dout := 0x53, valid := true } := by decide

set_option maxRecDepth 2000 in
theorem test_dec_642 :
    outputsAfter (before 0x38 true 0xE8238#20) = some { dout := 0x97, valid := true } := by decide

set_option maxRecDepth 2000 in
theorem test_dec_341 :
    outputsAfter (before 0xEB true 0xD554B#20) = some { dout := 0xC7, valid := true } := by decide

theorem test_idle_holds :
    outputsAfter (before 0x38 true 0x28297#20) = some { dout := 0x38, valid := true } := by decide

theorem test_idle_after_reset :
    outputsAfter (before 0x00 false 0x555AA#20) = some { dout := 0x00, valid := false } := by decide

theorem test_reset_wins_over_enc :
    outputsAfter (beforeReset 0x38 true 0xA8297#20) = some { dout := 0x00, valid := false } := by
  decide

set_option maxRecDepth 2000 in
/-- A word placed after reset is the command the next step runs. -/
theorem test_placed_word_runs :
    outputsAfter (State.reset.withFetchWord 24 0xDFD06) = some { dout := 0xA5, valid := true } := by
  decide

/-- Where the host's list has ended, the sample is that host's free one of the edge. -/
theorem test_free_sample : sample (drivenBy 3 { idleAhead with inputs := [] }) = freeInputs 3 7 := rfl

/-- Two instances in the reset state read the free samples of two hosts (R96). -/
theorem test_instances_have_own_hosts :
    systemStep [State.reset, State.reset] =
      [step (presentNext (freeInputs 0 0) State.reset),
       step (presentNext (freeInputs 1 0) { State.reset with host := 1 })] := rfl

/-! ## Witnesses: the hypotheses of each statement are met together -/

/-- Reset, then ENC, as program P1 of the spec begins. -/
def twoSamples : List Inputs := [Inputs.reset, Inputs.ofCmd 0xA8297#20]

theorem witness_PortBitNumbering_first : 1 ≤ 1 ∧ 1 ≤ 10 := by decide

theorem witness_PortBitNumbering_last : 1 ≤ 10 ∧ 10 ≤ 10 := by decide

theorem witness_OutputsHoldMostRecentResult_run :
    ∃ (xs rest : List Inputs) (s : State), s.inputs = xs ++ rest ∧ xs ≠ [] ∧
      s.outputs = State.reset.outputs :=
  ⟨twoSamples, [], { State.reset with inputs := twoSamples }, by decide, by decide, by decide⟩

theorem witness_OutputsHoldMostRecentResult_pair :
    ∃ s s' : State, s ≠ s' ∧ s.outputs = s'.outputs ∧ sample s = sample s' :=
  ⟨before 0x38 true 0xE8238#20, { before 0x38 true 0xE8238#20 with edge := 5 }, by decide, by decide,
    by decide⟩

theorem witness_StepRunsDecodedCommand_idle :
    (sample (before 0x38 true 0x555AA#20)).rst = false ∧
      decode (sample (before 0x38 true 0x555AA#20)).cmd = .idle := by decide

theorem witness_StepRunsDecodedCommand_enc :
    (sample (before 0x00 false 0xA8297#20)).rst = false ∧
      decode (sample (before 0x00 false 0xA8297#20)).cmd = .enc 642#10 0x97#8 := by decide

theorem witness_StepRunsDecodedCommand_dec :
    (sample (before 0x38 true 0xE8238#20)).rst = false ∧
      decode (sample (before 0x38 true 0xE8238#20)).cmd = .dec 642#10 0x38#8 := by decide

theorem witness_StepRunsDecodedCommand_list :
    idleAhead.inputs = Inputs.ofCmd 0x00000#20 ::
      [Inputs.ofCmd 0x555AA#20, Inputs.ofCmd 0xE8238#20] := by decide

theorem witness_ValidIsSticky :
    idleAhead.inputs = idleAhead.inputs ++ [] ∧ (∀ p ∈ idleAhead.inputs, p.rst = false) ∧
      idleAhead.valid = true := by
  refine ⟨by decide, ?_, rfl⟩
  simp [idleAhead, Inputs.ofCmd]

theorem witness_ResetLeavesResetState :
    (sample (beforeReset 0x38 true 0xA8297#20)).rst = true := by decide

theorem witness_StepKeepsInvalidOutputZero_invalid :
    ∃ t, InvalidMeansZero (before 0x00 false 0x555AA#20) ∧
      step (before 0x00 false 0x555AA#20) = .next t ∧ t.valid = false :=
  ⟨_, by decide, rfl, rfl⟩

theorem witness_StepKeepsInvalidOutputZero_valid :
    ∃ t, InvalidMeansZero (before 0x38 true 0xE8238#20) ∧
      step (before 0x38 true 0xE8238#20) = .next t ∧ t.valid = true :=
  ⟨_, by decide, rfl, rfl⟩

theorem witness_RunIsFoldOfPortTable :
    idleAhead.inputs = [Inputs.ofCmd 0x00000#20, Inputs.ofCmd 0x555AA#20] ++
      [Inputs.ofCmd 0xE8238#20] := by decide

theorem witness_OnlyIdleAndResetIgnoreBits_idle :
    ∃ p q : Inputs, p ≠ q ∧ p.rst = false ∧ p.start = false ∧ q.rst = false ∧ q.start = false :=
  ⟨Inputs.ofCmd 0x00000#20, Inputs.ofCmd 0x7FFFF#20, by decide, by decide, by decide, by decide,
    by decide⟩

theorem witness_OnlyIdleAndResetIgnoreBits_reset :
    ∃ p q : Inputs, p ≠ q ∧ p.rst = true ∧ q.rst = true :=
  ⟨Inputs.reset, { Inputs.ofCmd 0xA8297#20 with rst := true }, by decide, by decide, by decide⟩

theorem witness_WrittenLinesMeanTheirSteps : 1023 ≤ 1023 ∧ 255 ≤ 255 := by decide

theorem witness_OutOfRangeLinesAreRejected_key : 1023 < 1024 ∨ 255 < 0 := by decide

theorem witness_OutOfRangeLinesAreRejected_block : 1023 < 0 ∨ 255 < 256 := by decide

theorem witness_DecodeAndEncodeAgree_wellFormed :
    WellFormed (.enc 1023#10 255#8) = true ∧ WellFormed (.dec 0#10 0#8) = true ∧
      WellFormed .idle = true := by decide

theorem witness_DecodeAndEncodeAgree_start : (0xFFFFF#20).getLsbD 19 = true := by decide

theorem witness_DecodeAndEncodeAgree_idle : (0x7FFFF#20).getLsbD 19 = false := by decide

theorem witness_DecodeAndEncodeAgree_enc :
    (0xBFFFF#20).getLsbD 19 = true ∧ (0xBFFFF#20).getLsbD 18 = false := by decide

theorem witness_DecodeAndEncodeAgree_dec :
    (0xC0000#20).getLsbD 19 = true ∧ (0xC0000#20).getLsbD 18 = true := by decide

theorem witness_BitVectorConversionRoundTrip_first : 0 < 10 := by decide

theorem witness_BitVectorConversionRoundTrip_last : 9 < 10 := by decide

theorem witness_IdleHoldsState :
    idleAhead.inputs = [Inputs.ofCmd 0x00000#20, Inputs.ofCmd 0x555AA#20] ++
        [Inputs.ofCmd 0xE8238#20] ∧
      ∀ p ∈ [Inputs.ofCmd 0x00000#20, Inputs.ofCmd 0x555AA#20],
        p.rst = false ∧ p.start = false := by
  refine ⟨by decide, ?_⟩
  intro p hp
  simp only [List.mem_cons, List.not_mem_nil, or_false] at hp
  rcases hp with rfl | rfl <;> decide

/-- Key 96 has `K1 = K2` (R70). -/
theorem witness_EncryptionIsBijective : (keygen 96#10).1 = (keygen 96#10).2 := by decide

/-- Key 509 has `K1 = 0x5F` and `K2 = 0xFC` (R69). -/
theorem witness_UnequalRoundKeysGiveUnequalDirections :
    (keygen 509#10).1 ≠ (keygen 509#10).2 := by decide

theorem witness_EncryptionFunctionDeterminesKey :
    ∀ b : Block, transformBlock 509#10 b false = transformBlock 509#10 b false := fun _ => rfl

/-- Two bytes of program P2 of the spec, key 509. -/
theorem witness_StreamIsEcbAndRecovers_first :
    ∃ s : State, s.inputs = [0x53#8, 0x2D#8].map (present false 509#10) ++ [] :=
  ⟨{ State.reset with inputs := [0x53#8, 0x2D#8].map (present false 509#10) }, by decide⟩

theorem witness_StreamIsEcbAndRecovers_second :
    ∃ s s' : State, s.inputs = [0x53#8, 0x2D#8].map (present false 509#10) ++ [] ∧
      s'.inputs = ((trace 2 s).map Outputs.dout).map (present true 509#10) ++ [] :=
  ⟨{ State.reset with inputs := [0x53#8, 0x2D#8].map (present false 509#10) },
    { State.reset with inputs := [present true 509#10 0x28#8, present true 509#10 0xEB#8] },
    by decide, by decide⟩

theorem witness_InstancesAreIndependent :
    ∃ (cores cores' : List State) (i : Nat), cores ≠ cores' ∧ cores[i]? = cores'[i]? ∧
      cores[i]?.isSome :=
  ⟨[idleAhead, State.reset], [idleAhead, idleAhead], 0, by decide, by decide, by decide⟩

theorem witness_ResetWinsOverCommand :
    (sample (beforeReset 0x38 true 0xA8297#20)).rst = true ∧
      (sample (beforeReset 0x38 true 0xA8297#20)).start = true := by decide

theorem witness_ResetWinsOverCommand_consecutive :
    ∃ (xs rest : List Inputs) (s : State), s.inputs = xs ++ rest ∧ xs ≠ [] ∧
      ∀ p ∈ xs, p.rst = true :=
  ⟨[Inputs.reset, Inputs.reset], [], { idleAhead with inputs := [Inputs.reset, Inputs.reset] },
    by decide, by decide, by simp [Inputs.reset]⟩

theorem witness_ResetWinsOverCommand_first :
    ∃ s : State, s.inputs = Inputs.reset :: present false 642#10 0x97#8 :: [] ∧
      Inputs.reset.rst = true :=
  ⟨{ idleAhead with inputs := [Inputs.reset, present false 642#10 0x97#8] }, by decide, rfl⟩

theorem witness_ResultAfterLatencyIsHeld :
    ∃ s : State, s.inputs = present false 642#10 0x97#8 :: [Inputs.ofCmd 0x555AA#20] ++ [] ∧
      (Inputs.ofCmd 0x555AA#20).rst = false ∧ (Inputs.ofCmd 0x555AA#20).start = false :=
  ⟨{ State.reset with inputs := [present false 642#10 0x97#8, Inputs.ofCmd 0x555AA#20] },
    by decide, by decide, by decide⟩

theorem witness_StepExtendsHistory_empty :
    ∃ t, State.reset.outputs = mostRecent State.reset.outputs [] ∧
      step { State.reset with inputs := twoSamples } = .next t :=
  ⟨_, rfl, rfl⟩

/-- The history of `idleAhead` is the one command of R40 that leaves `DOUT = 0x38`. -/
theorem witness_StepExtendsHistory_command :
    ∃ t, idleAhead.outputs = mostRecent State.reset.outputs [Inputs.ofCmd 0xA8297#20] ∧
      step idleAhead = .next t :=
  ⟨_, by decide, rfl⟩

theorem witness_SystemIsProductOfPortTables_list :
    [State.reset, idleAhead][1]? = some idleAhead ∧
      idleAhead.inputs = Inputs.ofCmd 0x00000#20 ::
        [Inputs.ofCmd 0x555AA#20, Inputs.ofCmd 0xE8238#20] := by decide

theorem witness_SystemIsProductOfPortTables_ended :
    [State.reset, State.reset][1]? = some State.reset ∧ State.reset.inputs = [] := by decide

end Sys2Proof.Tests
end

