-- ==== Sys2Proof/Proofs/Scope.lean ====
section
/-! PROOF. Split pairs at every half width (00_scope.md R5): which bits each half takes, `concat` as
shift and or, and the two inverse laws. -/

namespace Sys2Proof.Proofs.Scope

open Sys2Proof.Machine

theorem split_left {h : Nat} (v : BitVec (h + h)) : (split v).left = v.extractLsb' h h := rfl

theorem split_right {h : Nat} (v : BitVec (h + h)) : (split v).right = v.extractLsb' 0 h := rfl

@[simp] theorem concat_split {h : Nat} (v : BitVec (h + h)) : concat (split v) = v :=
  BitVec.extractLsb'_append_extractLsb'

@[simp] theorem split_concat {h : Nat} (p : SplitPair h) : split (concat p) = p := by
  obtain ⟨left, right⟩ := p
  have hleft : (left ++ right).extractLsb' h h = left := BitVec.extractLsb'_append_eq_left
  have hright : (left ++ right).extractLsb' 0 h = right := BitVec.extractLsb'_append_eq_right
  simp only [split, concat, hleft, hright]

theorem concat_eq_shiftLeft_or {h : Nat} (p : SplitPair h) :
    concat p = (p.left.setWidth (h + h) <<< h) ||| p.right.setWidth (h + h) :=
  calc concat p
    _ = (p.left ++ p.right).setWidth (h + h) := (BitVec.setWidth_eq _).symm
    _ = (p.left.setWidth (h + h) <<< h) ||| p.right.setWidth (h + h) :=
        BitVec.setWidth_append_eq_shiftLeft_setWidth_or

/-- Settles O1: the halves are slices whose append is the whole value, and an append at its own width
is the shift and or of R5. -/
theorem splitAndConcatAreInverse : Obligations.SplitAndConcatAreInverse :=
  ⟨fun _ v => ⟨split_left v, split_right v, concat_split v⟩,
    fun _ p => ⟨concat_eq_shiftLeft_or p, split_concat p⟩⟩

end Sys2Proof.Proofs.Scope
end

