-- ==== Sys2Proof/Proofs/PortStep.lean ====
section
/-! PROOF. The state rules of 10_state.md (R9 to R20). A sample decodes to the event its ports name, so
a step is the table of R12 over the ports, and a run over given samples is the fold of that table; the
history of R10 is the same fold read from its other end. -/

namespace Sys2Proof.Proofs.PortStep

open Sys2Proof.Machine Sys2Proof.Safety Sys2Proof.Laws

/-! ## The fields of a bundle are the ports it was made of (R32) -/

@[simp] theorem cmdStart_bundle (start decrypt : Bool) (key : Key) (din : Block) :
    cmdStart (bundle start decrypt key din) = start := by
  rw [cmdStart, bundle_getLsbD]; rfl

@[simp] theorem cmdDecrypt_bundle (start decrypt : Bool) (key : Key) (din : Block) :
    cmdDecrypt (bundle start decrypt key din) = decrypt := by
  rw [cmdDecrypt, bundle_getLsbD]; rfl

@[simp] theorem cmdKey_bundle (start decrypt : Bool) (key : Key) (din : Block) :
    cmdKey (bundle start decrypt key din) = key := by
  refine BitVec.eq_of_getLsbD_eq fun j hj => ?_
  have hfield : 8 + j < 18 := by omega
  simp [cmdKey, bundle_getLsbD, hj, hfield]

@[simp] theorem cmdDin_bundle (start decrypt : Bool) (key : Key) (din : Block) :
    cmdDin (bundle start decrypt key din) = din := by
  refine BitVec.eq_of_getLsbD_eq fun j hj => ?_
  simp [cmdDin, bundle_getLsbD, hj]

/-! ## What a sample asks for, read off the ports (R39) -/

theorem event_of_rst {p : Inputs} (hr : p.rst = true) : p.event = .reset := by
  simp [Inputs.event, decodeEvent, hr]

theorem event_of_idle {p : Inputs} (hr : p.rst = false) (hs : p.start = false) :
    p.event = .command .idle := by
  simp [Inputs.event, decodeEvent, decode, Inputs.cmd, hr, hs]

theorem event_of_enc {p : Inputs} (hr : p.rst = false) (hs : p.start = true)
    (hd : p.decrypt = false) : p.event = .command (.enc p.key p.din) := by
  simp [Inputs.event, decodeEvent, decode, Inputs.cmd, hr, hs, hd]

theorem event_of_dec {p : Inputs} (hr : p.rst = false) (hs : p.start = true)
    (hd : p.decrypt = true) : p.event = .command (.dec p.key p.din) := by
  simp [Inputs.event, decodeEvent, decode, Inputs.cmd, hr, hs, hd]

/-! ## The step is the table of R12 -/

/-- The state one edge leaves, by the table of R12. That the sample is used up and the edge counted is
the model's choice (log entries 1 and 2). -/
def afterEdge (s : State) : State :=
  { dout := (nextOutputs s.outputs (sample s)).dout,
    valid := (nextOutputs s.outputs (sample s)).valid,
    inputs := s.inputs.tail, edge := s.edge + 1, host := s.host }

@[simp] theorem afterEdge_outputs (s : State) :
    (afterEdge s).outputs = nextOutputs s.outputs (sample s) := rfl
@[simp] theorem afterEdge_valid (s : State) :
    (afterEdge s).valid = (nextOutputs s.outputs (sample s)).valid := rfl
@[simp] theorem afterEdge_inputs (s : State) : (afterEdge s).inputs = s.inputs.tail := rfl
@[simp] theorem afterEdge_edge (s : State) : (afterEdge s).edge = s.edge + 1 := rfl
@[simp] theorem afterEdge_host (s : State) : (afterEdge s).host = s.host := rfl

theorem step_eq (s : State) : step s = .next (afterEdge s) := by
  cases hr : (sample s).rst with
  | true => rw [step_of_reset (event_of_rst hr), afterEdge, nextOutputs_reset hr]; rfl
  | false =>
    cases hs : (sample s).start with
    | false => rw [step_of_command (event_of_idle hr hs), afterEdge, nextOutputs_idle hr hs]; rfl
    | true =>
      rw [afterEdge, nextOutputs_command hr hs]
      cases hd : (sample s).decrypt with
      | false => rw [step_of_command (event_of_enc hr hs hd)]; rfl
      | true => rw [step_of_command (event_of_dec hr hs hd)]; rfl

theorem step_outputs {s t : State} (h : step s = .next t) :
    t.outputs = nextOutputs s.outputs (sample s) := by
  rw [step_eq] at h
  injection h with h
  rw [← h, afterEdge_outputs]

/-! ## A run is the fold of the table over its samples (R28) -/

@[simp] theorem run_zero (s : State) : Sys2Proof.core.run 0 s = .next s := rfl

theorem run_succ_of_step {M : Host.Core} {s t : M.State} (h : M.step s = .next t) (n : Nat) :
    M.run (n + 1) s = M.run n t := by
  rw [Host.Core.run, h]

theorem run_succ (n : Nat) (s : State) :
    Sys2Proof.core.run (n + 1) s = Sys2Proof.core.run n (afterEdge s) :=
  run_succ_of_step (M := Sys2Proof.core) (step_eq s) n

/-- A run over the samples `xs` uses up exactly these and folds the table over them. -/
theorem run_samples (xs : List Inputs) {rest : List Inputs} {s : State}
    (h : s.inputs = xs ++ rest) :
    ∃ t : State, Sys2Proof.core.run xs.length s = .next t ∧
      t.outputs = xs.foldl nextOutputs s.outputs ∧
      t.inputs = rest ∧ t.edge = s.edge + xs.length ∧ t.host = s.host := by
  induction xs generalizing s with
  | nil => exact ⟨s, run_zero s, rfl, h, rfl, rfl⟩
  | cons p xs ih =>
    have htail : (afterEdge s).inputs = xs ++ rest := by rw [afterEdge_inputs, h]; rfl
    obtain ⟨t, hrun, hout, hinputs, hedge, hhost⟩ := ih htail
    refine ⟨t, ?_, ?_, hinputs, ?_, hhost⟩
    · rw [List.length_cons, run_succ, hrun]
    · rw [hout, afterEdge_outputs, sample_cons h, List.foldl_cons]
    · rw [hedge, afterEdge_edge, List.length_cons]; omega

/-! ## The history of R10 is the same fold, most recent sample first -/

theorem mostRecent_cons (before : Outputs) (p : Inputs) (older : List Inputs) :
    mostRecent before (p :: older) = nextOutputs (mostRecent before older) p := by
  cases hr : p.rst with
  | true => simp [mostRecent, hr, nextOutputs_reset hr]
  | false =>
    cases hs : p.start with
    | false => simp [mostRecent, hr, hs, nextOutputs_idle hr hs]
    | true => simp [mostRecent, hr, hs, nextOutputs_command hr hs]

theorem mostRecent_eq_foldr (before : Outputs) (h : List Inputs) :
    mostRecent before h = h.foldr (fun p o => nextOutputs o p) before := by
  induction h with
  | nil => rfl
  | cons p older ih => rw [mostRecent_cons, ih, List.foldr_cons]

theorem mostRecent_reverse (before : Outputs) (xs : List Inputs) :
    mostRecent before xs.reverse = xs.foldl nextOutputs before := by
  rw [mostRecent_eq_foldr, List.foldr_reverse]

/-- Settles O57: a step is one row of R12, and one more sample in front of a history is one more row. -/
theorem stepExtendsHistory : Obligations.StepExtendsHistory := by
  intro s t h hs hstep
  rw [step_outputs hstep, hs, mostRecent_cons]

/-- Settles O3: the run is the fold of R12, which the reversed samples spell as a history; and one row
of R12 reads the outputs and the sample only. -/
theorem outputsHoldMostRecentResult : Obligations.OutputsHoldMostRecentResult := by
  refine ⟨fun xs rest s hxs hreset => ?_, fun s s' hout hsample => ?_⟩
  · obtain ⟨t, hrun, ht, -⟩ := run_samples xs hxs
    exact ⟨t, hrun, by rw [ht, hreset, mostRecent_reverse]⟩
  · refine ⟨afterEdge s, afterEdge s', step_eq s, step_eq s', ?_⟩
    rw [afterEdge_outputs, afterEdge_outputs, hout, hsample]

/-- Settles O4: `afterEdge` is the next state that R12 writes. -/
theorem stepFollowsPortTable : Obligations.StepFollowsPortTable := step_eq

/-! ## VALID (R16) -/

theorem nextOutputs_valid (o : Outputs) (p : Inputs) :
    (nextOutputs o p).valid = (!p.rst && (p.start || o.valid)) := by
  cases hr : p.rst with
  | true => rw [nextOutputs_reset hr]; rfl
  | false =>
    cases hs : p.start with
    | false => rw [nextOutputs_idle hr hs]; rfl
    | true => rw [nextOutputs_command hr hs]; rfl

theorem foldl_nextOutputs_valid {xs : List Inputs} (hxs : ∀ p ∈ xs, p.rst = false) {o : Outputs}
    (ho : o.valid = true) : (xs.foldl nextOutputs o).valid = true :=
  List.foldlRecOn (motive := fun o => o.valid = true) xs nextOutputs ho fun o ho p hp => by
    simp [nextOutputs_valid, hxs p hp, ho]

/-- Settles O7: VALID follows its column of R12, which without reset never falls. -/
theorem validIsSticky : Obligations.ValidIsSticky := by
  refine ⟨fun s => ⟨afterEdge s, step_eq s, ?_⟩, fun xs rest s hxs hrst hvalid => ?_⟩
  · rw [afterEdge_valid, nextOutputs_valid, outputs_valid]
  · obtain ⟨t, hrun, ht, -⟩ := run_samples xs hxs
    refine ⟨t, hrun, ?_⟩
    rw [← outputs_valid, ht]
    exact foldl_nextOutputs_valid hrst hvalid

/-! ## The names of a port's bits (R9) -/

theorem pos_eq_bit {w : Nat} (v : BitVec w) (p : Nat) : pos v p = bit v (w - p) := rfl

theorem pos_eq_vec {w p : Nat} (v : BitVec w) (hp : 1 ≤ p) : pos v p = vec v (p - 1) := by
  have hindex : w - p = w - 1 - (p - 1) := by omega
  rw [pos, vec, hindex]

theorem pos_eq_testBit {w : Nat} (v : BitVec w) (p : Nat) :
    pos v p = v.toNat.testBit (w - p) := (BitVec.testBit_toNat v).symm

/-- Settles O2: the numbered bits of the two ports are cases of the general law. -/
theorem portBitNumbering : Obligations.PortBitNumbering := by
  refine ⟨fun key => ⟨?_, (pos_eq_bit key 1).symm, (pos_eq_bit key 10).symm⟩,
    fun din => ⟨?_, (pos_eq_bit din 1).symm, (pos_eq_bit din 8).symm⟩,
    fun w p v hp _ => ⟨pos_eq_vec v hp, pos_eq_bit v p, pos_eq_testBit v p⟩⟩
  · exact (pos_eq_bit key 1).symm.trans (pos_eq_vec key (Nat.le_refl 1))
  · exact (pos_eq_bit din 1).symm.trans (pos_eq_vec din (Nat.le_refl 1))

/-! ## Reset (R20) -/

theorem reset_outputs : State.reset.outputs = { dout := 0x00#8, valid := false } := rfl

/-- Settles O8: a sampled reset is the first row of R12. -/
theorem resetLeavesResetState : Obligations.ResetLeavesResetState := by
  refine ⟨rfl, rfl, fun s hr => ⟨afterEdge s, step_eq s, ?_⟩⟩
  rw [afterEdge_outputs, nextOutputs_reset hr, reset_outputs]

/-- Settles O56: the empty history leaves the outputs it began from. -/
theorem emptyHistoryGivesResetOutputs : Obligations.EmptyHistoryGivesResetOutputs := reset_outputs

end Sys2Proof.Proofs.PortStep
end

