-- ==== Sys2Proof/Proofs/Memory.lean ====
section
/-! PROOF. The sequence of edges of 20_memory.md (R28): a run's whole next state, from the fields that
`run_samples` names. -/

namespace Sys2Proof.Proofs.Memory

open Sys2Proof.Proofs.PortStep

/-- Settles O11: `run_samples` gives each field of the state the run leaves, and a state is its five
fields. -/
theorem runIsFoldOfPortTable : Obligations.RunIsFoldOfPortTable := by
  intro xs rest s hxs
  obtain ⟨t, hrun, hout, hinputs, hedge, hhost⟩ := run_samples xs hxs
  rw [hrun, ← hout, ← hinputs, ← hedge, ← hhost]
  rfl

end Sys2Proof.Proofs.Memory
end

