-- ==== Sys2Proof/Proofs/Encoding.lean ====
section
/-! PROOF. The command encoding of 30_encoding.md (R32 to R40). A bundle is put together again
from its four fields, so decoding and encoding are read off the fields alone; and the datapath in one
direction undoes the other, so no block bit of a command is ever ignored. -/

namespace Sys2Proof.Proofs.Encoding

open Sys2Proof.Machine Sys2Proof.Safety Sys2Proof.Laws Sys2Proof.Proofs.PortStep
open Sys2Proof.Proofs.Scope

/-! ## A bundle and its fields (R32) -/

/-- A bundle holds nothing but its four fields. -/
@[simp] theorem bundle_fields (c : Cmd) :
    bundle (cmdStart c) (cmdDecrypt c) (cmdKey c) (cmdDin c) = c := by
  refine BitVec.eq_of_getLsbD_eq fun j hj => ?_
  rw [bundle_getLsbD]
  split_ifs with hdin hkey hdecrypt hstart
  · simp [cmdDin, hdin]
  · have hlt : j - 8 < 10 := by omega
    have hadd : 8 + (j - 8) = j := by omega
    simp [cmdKey, hlt, hadd]
  · rw [hdecrypt, cmdDecrypt]
  · rw [hstart, cmdStart]
  · omega

/-- The fields of a bundle side by side, the leftmost in the high-order bits. -/
theorem bundle_eq_append (start decrypt : Bool) (key : Key) (din : Block) :
    bundle start decrypt key din =
      ((BitVec.ofBool start ++ BitVec.ofBool decrypt) ++ key) ++ din := by
  rw [← BitVec.setWidth_eq (((BitVec.ofBool start ++ BitVec.ofBool decrypt) ++ key) ++ din)]
  simp only [BitVec.setWidth_append_eq_shiftLeft_setWidth_or, BitVec.shiftLeft_or_distrib,
    ← BitVec.shiftLeft_add]
  rfl

theorem toNat_append_eq_mul_add {m n : Nat} (x : BitVec m) (y : BitVec n) :
    (x ++ y).toNat = x.toNat * 2 ^ n + y.toNat := by
  rw [BitVec.toNat_append, ← Nat.shiftLeft_add_eq_or_of_lt y.isLt, Nat.shiftLeft_eq]

theorem bundle_toNat (start decrypt : Bool) (key : Key) (din : Block) :
    (bundle start decrypt key din).toNat =
      start.toNat * 2 ^ 19 + decrypt.toNat * 2 ^ 18 + key.toNat * 2 ^ 8 + din.toNat := by
  simp only [bundle_eq_append, toNat_append_eq_mul_add, BitVec.toNat_ofBool]
  omega

/-- Settles O12: the number is that of the fields side by side, and each field reads back. -/
theorem bundleConcatenatesPorts : Obligations.BundleConcatenatesPorts := fun _ =>
  ⟨bundle_toNat .., cmdStart_bundle .., cmdDecrypt_bundle .., cmdKey_bundle .., cmdDin_bundle ..⟩

/-! ## The three forms of the decoder (R34, R39) -/

theorem decode_of_idle {c : Cmd} (hs : cmdStart c = false) : decode c = .idle := by
  simp [decode, hs]

theorem decode_of_enc {c : Cmd} (hs : cmdStart c = true) (hd : cmdDecrypt c = false) :
    decode c = .enc (cmdKey c) (cmdDin c) := by
  simp [decode, hs, hd]

theorem decode_of_dec {c : Cmd} (hs : cmdStart c = true) (hd : cmdDecrypt c = true) :
    decode c = .dec (cmdKey c) (cmdDin c) := by
  simp [decode, hs, hd]

/-- R39, first direction: the operand widths already keep R33, so no hypothesis is needed. -/
@[simp] theorem decode_encode (i : Instr) : decode (encode i) = i := by
  cases i with
  | idle => exact decode_idle_canonical
  | enc key din => simp [encode, decode]
  | dec key din => simp [encode, decode]

/-- R39, second direction, for the words that hold a command. -/
theorem encode_decode {c : Cmd} (hs : cmdStart c = true) : encode (decode c) = c := by
  cases hd : cmdDecrypt c with
  | false => rw [decode_of_enc hs hd, encode, ← hs, ← hd, bundle_fields]
  | true =>
    rw [decode_of_dec hs hd, encode]
    conv_rhs => rw [← bundle_fields c, hs, hd]

theorem bundle_enc (key : Key) (din : Block) :
    bundle true false key din = 0x80000#20 ||| (key.setWidth 20 <<< 8) ||| din.setWidth 20 := by
  simp [bundle]

theorem bundle_dec (key : Key) (din : Block) :
    bundle true true key din = 0xC0000#20 ||| (key.setWidth 20 <<< 8) ||| din.setWidth 20 := by
  simp [bundle]

/-- Settles O17: the two round trips, the decoder's three forms, and the encoder's two formulas. -/
theorem decodeAndEncodeAgree : Obligations.DecodeAndEncodeAgree := by
  refine ⟨fun i _ => decode_encode i, fun c hs => encode_decode hs, fun c hs => ?_,
    fun c hs hd => decode_of_enc hs hd, fun c hs hd => decode_of_dec hs hd,
    fun k b => ⟨bundle_enc k b, bundle_dec k b⟩, fun c => ⟨rfl, rfl⟩⟩
  rw [decode_of_idle hs]
  exact ⟨rfl, rfl⟩

/-- The bits under the mask of IDLE are those of `start`. -/
theorem and_startMask (c : Cmd) : c &&& 0x80000#20 = bundle (cmdStart c) false 0#10 0#8 := by
  refine BitVec.eq_of_getLsbD_eq fun j hj => ?_
  rw [bundle_getLsbD]
  interval_cases j <;> simp [cmdStart]

/-- The bits under the mask of ENC and DEC are those of `start` and `decrypt`. -/
theorem and_formMask (c : Cmd) :
    c &&& 0xC0000#20 = bundle (cmdStart c) (cmdDecrypt c) 0#10 0#8 := by
  refine BitVec.eq_of_getLsbD_eq fun j hj => ?_
  rw [bundle_getLsbD]
  interval_cases j <;> simp [cmdStart, cmdDecrypt]

/-- Settles O13: the masked values are bundles of the two selecting bits, whose values choose the
form. -/
theorem exactlyOneFormMatches : Obligations.ExactlyOneFormMatches := by
  intro c
  rw [and_startMask, and_formMask]
  cases hs : cmdStart c with
  | false =>
    refine .inl ⟨by decide, ?_, ?_, decode_of_idle hs⟩ <;> cases cmdDecrypt c <;> decide
  | true =>
    cases hd : cmdDecrypt c with
    | false => exact .inr (.inl ⟨by decide, by decide, by decide, decode_of_enc hs hd⟩)
    | true => exact .inr (.inr ⟨by decide, by decide, by decide, decode_of_dec hs hd⟩)

/-- The encoding of a command is any word with `start = 1` that decodes to it. -/
theorem encode_eq_of_decode_eq {c : Cmd} {i : Instr} (hs : cmdStart c = true) (h : decode c = i) :
    encode i = c := by
  rw [← h, encode_decode hs]

/-- Settles O18: each word decodes as the spec says, and one that holds a command is its command's
encoding. -/
theorem encodingExamples : Obligations.EncodingExamples :=
  ⟨encode_eq_of_decode_eq rfl decode_enc_642_97, decode_enc_642_97,
    encode_eq_of_decode_eq rfl decode_dec_642_38, decode_dec_642_38,
    encode_eq_of_decode_eq rfl (by decide), by decide,
    encode_eq_of_decode_eq rfl (by decide), by decide,
    encode_eq_of_decode_eq rfl (by decide), by decide,
    rfl, decode_idle_canonical, decode_idle_ignored_bits⟩

/-! ## The step of a presented bundle (R39) -/

/-- Presenting the ports of a bundle presents the bundle. -/
@[simp] theorem ofCmd_cmd (c : Cmd) : (Inputs.ofCmd c).cmd = c := bundle_fields c

theorem event_of_decode {p : Inputs} {i : Instr} (hr : p.rst = false) (h : decode p.cmd = i) :
    p.event = .command i := by
  simp [Inputs.event, decodeEvent, hr, h]

@[simp] theorem nextEdge_presentNext (p : Inputs) (s : State) :
    nextEdge (presentNext p s) = nextEdge s := rfl

theorem step_presentNext_of_command {p : Inputs} {i : Instr} (h : p.event = .command i)
    (s : State) : step (presentNext p s) = .next (afterCommand i (nextEdge s)) := by
  exact step_of_command (s := presentNext p s) h

theorem step_presentNext_of_reset {p : Inputs} (h : p.event = .reset) (s : State) :
    step (presentNext p s) = .next (resetCore (nextEdge s)) := by
  exact step_of_reset (s := presentNext p s) h

theorem step_presentNext_ofCmd (c : Cmd) (s : State) :
    step (presentNext (Inputs.ofCmd c) s) = .next (afterCommand (decode c) (nextEdge s)) :=
  step_presentNext_of_command (event_of_decode rfl (congrArg decode (ofCmd_cmd c))) s

/-- Settles O5: the sample asks for the command its bundle decodes to. -/
theorem stepRunsDecodedCommand : Obligations.StepRunsDecodedCommand := by
  refine ⟨fun s i hr hi => ?_, fun s p rest h => sample_cons h⟩
  rw [step_of_command (event_of_decode hr hi), exec_eq]
  rfl

/-- A word of 20 bits is the bundle with these bits. -/
theorem tableCmd_toNat (c : Cmd) : tableCmd 20 c.toNat = some c := by
  simp [tableCmd, Nat.mod_eq_of_lt c.isLt, c.isLt]

theorem withFetchWord_toNat (c : Cmd) (s : State) :
    s.withFetchWord 20 c.toNat = presentNext (Inputs.ofCmd c) s := by
  rw [State.withFetchWord, tableCmd_toNat]

/-- Settles O6: placing the word presents its bundle, which is sampled as it is. -/
theorem placedWordRunsNext : Obligations.PlacedWordRunsNext := by
  intro s c
  refine ⟨by rw [decodeTableWord, tableCmd_toNat, Option.map_some], ?_⟩
  rw [withFetchWord_toNat, step_presentNext_ofCmd, exec_eq]
  rfl

/-! ## The written notation (R38) -/

/-- The host's two range checks together. -/
theorem operandsInRange_iff (k b : Nat) :
    (keyInRange k && blockInRange b) = true ↔ k ≤ 1023 ∧ b ≤ 255 := by
  simp [keyInRange, blockInRange]

theorem inputs?_enc {k b : Nat} (hk : k ≤ 1023) (hb : b ≤ 255) :
    (HostLine.enc k b).inputs? =
      some (Inputs.ofCmd (bundle true false (BitVec.ofNat 10 k) (BitVec.ofNat 8 b))) :=
  if_pos ((operandsInRange_iff k b).mpr ⟨hk, hb⟩)

theorem inputs?_dec {k b : Nat} (hk : k ≤ 1023) (hb : b ≤ 255) :
    (HostLine.dec k b).inputs? =
      some (Inputs.ofCmd (bundle true true (BitVec.ofNat 10 k) (BitVec.ofNat 8 b))) :=
  if_pos ((operandsInRange_iff k b).mpr ⟨hk, hb⟩)

/-- Settles O16: the range check of R33 fails, and with it the line. -/
theorem outOfRangeLinesAreRejected : Obligations.OutOfRangeLinesAreRejected := by
  intro k b hout
  have hrange : ¬ (keyInRange k && blockInRange b) = true := by
    rw [operandsInRange_iff]; omega
  exact ⟨if_neg hrange, if_neg hrange⟩

theorem setWidth_key {k : Nat} (hk : k ≤ 1023) :
    (BitVec.ofNat 10 k).setWidth 20 = BitVec.ofNat 20 k :=
  BitVec.setWidth_ofNat_of_le_of_lt (by decide) (by omega)

theorem setWidth_block {b : Nat} (hb : b ≤ 255) :
    (BitVec.ofNat 8 b).setWidth 20 = BitVec.ofNat 20 b :=
  BitVec.setWidth_ofNat_of_le_of_lt (by decide) (by omega)

/-- What presenting a command's encoding leaves at `DOUT`. -/
theorem dout_of_presented_encoding (i : Instr) (s : State) :
    ∃ t : State, step (presentNext (Inputs.ofCmd (encode i)) s) = .next t ∧
      t.dout = (afterCommand i (nextEdge s)).dout :=
  ⟨_, step_presentNext_ofCmd .., by rw [decode_encode]⟩

/-- Settles O15: a line in range presents its command's encoding, which the next step runs. -/
theorem writtenLinesMeanTheirSteps : Obligations.WrittenLinesMeanTheirSteps := by
  refine ⟨rfl, rfl, rfl, fun k b hk hb => ⟨⟨_, inputs?_enc hk hb, rfl, ?_, ?_⟩,
    ⟨_, inputs?_dec hk hb, rfl, ?_, ?_⟩⟩⟩
  · rw [ofCmd_cmd, bundle_enc, setWidth_key hk, setWidth_block hb]
  · exact dout_of_presented_encoding (.enc (BitVec.ofNat 10 k) (BitVec.ofNat 8 b))
  · rw [ofCmd_cmd, bundle_dec, setWidth_key hk, setWidth_block hb]
  · exact dout_of_presented_encoding (.dec (BitVec.ofNat 10 k) (BitVec.ofNat 8 b))

/-! ## One direction of the cipher undoes the other -/

/-- The wiring of `second` undoes that of `first` if each output bit `j` of `second` takes a bit `i`
that `first` took from bit `j` (R44). -/
theorem permute_permute_of_inverse {n : Nat} {first second : Vector Nat n}
    (h : ∀ j : Fin n, ∃ i : Fin n, n - second[n - 1 - j.val] = i.val ∧
      n - first[n - 1 - i.val] = j.val) (x : BitVec n) :
    permute second (permute first x) = x := by
  refine BitVec.eq_of_getLsbD_eq fun j hj => ?_
  obtain ⟨i, hsecond, hfirst⟩ := h ⟨j, hj⟩
  rw [permute_getLsbD _ _ _ hj, pos, hsecond, bit, permute_getLsbD _ _ _ i.isLt, pos, hfirst, bit]

@[simp] theorem ip_ipInv (x : Block) : ip (ipInv x) = x :=
  permute_permute_of_inverse (by decide) x

@[simp] theorem ipInv_ip (x : Block) : ipInv (ip x) = x :=
  permute_permute_of_inverse (by decide) x

@[simp] theorem fk_fk (p : SplitPair 4) (sk : RoundKey) : fk (fk p sk) sk = p := by
  simp [fk]

@[simp] theorem sw_sw (p : SplitPair 4) : sw (sw p) = p := rfl

theorem twoRounds_swap (ks : RoundKey × RoundKey) (p : SplitPair 4) :
    twoRounds ks.swap (twoRounds ks p) = p := by
  simp [twoRounds]

theorem roundKeys_not (key : Key) (d : Bool) :
    roundKeys key (!d) = (roundKeys key d).swap := by
  cases d <;> rfl

@[simp] theorem transformBlock_not_transformBlock (key : Key) (din : Block) (d : Bool) :
    transformBlock key (transformBlock key din d) (!d) = din := by
  simp only [transformBlock, ip_ipInv, split_concat, roundKeys_not, twoRounds_swap, concat_split,
    ipInv_ip]

theorem transformBlock_injective (key : Key) (d : Bool) :
    Function.Injective (fun din => transformBlock key din d) :=
  Function.LeftInverse.injective (g := fun b => transformBlock key b (!d)) fun din =>
    transformBlock_not_transformBlock key din d

/-! ## The ignored bits (R36) -/

set_option maxRecDepth 2000 in
/-- Under the key 0 each single key bit shows in the result of the block 0, in both directions. As
in the model's tests, a whole DEC is deeper to evaluate than the elaborator's default limit. -/
theorem zeroKey_bit_changes_result : ∀ (d : Bool) (j : Fin 10),
    transformBlock (0#10 ^^^ (1#10 <<< j.val)) 0#8 d ≠ transformBlock 0#10 0#8 d := by
  intro d
  cases d <;> decide

theorem xor_bit_ne_self (din : Block) (j : Fin 8) : din ^^^ (1#8 <<< j.val) ≠ din := by
  have hbit : 1#8 <<< j.val ≠ 0#8 := by revert j; decide
  intro h
  exact hbit (by simpa using h)

/-- Settles O14: idle and reset samples ask for one event each; every key bit shows at the key 0,
and every block bit everywhere, since a direction is injective in the block. -/
theorem onlyIdleAndResetIgnoreBits : Obligations.OnlyIdleAndResetIgnoreBits := by
  refine ⟨fun s p q hp hps hq hqs => ?_, fun s p q hp hq => ?_,
    fun d j => ⟨0#10, 0#8, zeroKey_bit_changes_result d j⟩, fun d j key din h => ?_⟩
  · rw [step_presentNext_of_command (event_of_idle hp hps),
      step_presentNext_of_command (event_of_idle hq hqs)]
  · rw [step_presentNext_of_reset (event_of_rst hp), step_presentNext_of_reset (event_of_rst hq)]
  · exact xor_bit_ne_self din j (transformBlock_injective key d h)

end Sys2Proof.Proofs.Encoding
end

