-- ==== Sys2Proof/Proofs/Permutations.lean ====
section
/-! PROOF. Bit-vector conversion and the wirings of 40_bitvec_permutations.md (R41 to R54). Everything
goes through one rule of R44, `pos_permute`: an output position is a copy of the input position its table
names. Which input bits a table copies then decides whether its wiring is one-to-one. -/

namespace Sys2Proof.Proofs.Permutations

open Sys2Proof.Machine Sys2Proof.Laws Sys2Proof.Proofs.PortStep Sys2Proof.Proofs.Encoding

/-! ## Positions of a value and elements of a sequence (R41, R42) -/

theorem eq_of_pos_eq {w : Nat} {v u : BitVec w} (h : ∀ i < w, pos v (i + 1) = pos u (i + 1)) :
    v = u := by
  refine BitVec.eq_of_getLsbD_eq fun j hj => ?_
  have hbit : w - (w - 1 - j + 1) = j := by omega
  simpa [pos, bit, hbit] using h (w - 1 - j) (by omega)

@[simp] theorem pos_xor {w : Nat} (v u : BitVec w) (p : Nat) :
    pos (v ^^^ u) p = (pos v p ^^ pos u p) := BitVec.getLsbD_xor ..

@[simp] theorem pos_zero {w : Nat} (p : Nat) : pos (0#w) p = false := BitVec.getLsbD_zero

@[simp] theorem toBits_length {w : Nat} (v : BitVec w) : (toBits v).length = w := by
  simp [toBits]

theorem toBits_getElem {w : Nat} (v : BitVec w) {i : Nat} (hi : i < (toBits v).length) :
    (toBits v)[i] = pos v (i + 1) := by
  rw [pos_eq_vec v (Nat.le_add_left 1 i)]
  simp [toBits]

theorem pos_fromBits {w : Nat} {bits : List Bool} (hw : bits.length = w) {i : Nat}
    (hi : i < bits.length) : pos (fromBits w bits) (i + 1) = bits[i] := by
  have hbit : w - (i + 1) < w := by omega
  have hrev : w - (i + 1) < bits.reverse.length := by rwa [List.length_reverse, hw]
  have hindex : bits.length - 1 - (w - (i + 1)) = i := by omega
  simp only [pos, bit, fromBits, BitVec.getLsbD_ofNat, hbit, decide_true, Bool.true_and,
    bitsValue_testBit, List.getD_eq_getElem _ _ hrev, List.getElem_reverse, hindex]

theorem pos_eq_shift {w : Nat} (v : BitVec w) (p : Nat) :
    pos v p = ((v.toNat >>> (w - p)) % 2 == 1) := by
  rw [pos_eq_testBit, Nat.testBit_eq_decide_div_mod_eq, Nat.shiftRight_eq_div_pow]
  rfl

/-- The sum of R42, the leftmost element split off in front. -/
theorem bitsValue_eq_sum (bits : List Bool) :
    bitsValue bits = ((List.range bits.length).map
      (fun i => (bits.getD i false).toNat * 2 ^ (bits.length - 1 - i))).sum := by
  induction bits with
  | nil => rfl
  | cons b bs ih =>
    have hexp : ∀ i, bs.length - 1 - i = bs.length - (i + 1) := by omega
    rw [bitsValue, ih, List.length_cons, List.sum_range_succ']
    simp only [List.getD_cons_zero, List.getD_cons_succ, Nat.add_sub_cancel, Nat.sub_zero, hexp]

theorem fromBits_toNat (bits : List Bool) :
    (fromBits bits.length bits).toNat = bitsValue bits := by
  rw [fromBits, BitVec.toNat_ofNat, Nat.mod_eq_of_lt (bitsValue_lt bits)]

@[simp] theorem fromBits_toBits {w : Nat} (v : BitVec w) : fromBits w (toBits v) = v :=
  eq_of_pos_eq fun i hi => by
    have hlen : i < (toBits v).length := by rwa [toBits_length]
    rw [pos_fromBits (toBits_length v) hlen, toBits_getElem v hlen]

@[simp] theorem toBits_fromBits (bits : List Bool) :
    toBits (fromBits bits.length bits) = bits :=
  List.ext_getElem (toBits_length _) fun i hi hbits => by
    rw [toBits_getElem _ hi, pos_fromBits rfl hbits]

/-- Settles O19: each element of `toBits` is a shifted bit, the value of a sequence is the sum of R42,
and the two agree position by position. -/
theorem bitVectorConversionRoundTrip : Obligations.BitVectorConversionRoundTrip := by
  refine ⟨fun w v => ⟨toBits_length v, fun i hi => ?_⟩,
    fun bits => (fromBits_toNat bits).trans (bitsValue_eq_sum bits),
    fun w v => fromBits_toBits v, toBits_fromBits⟩
  have hlen : i < (toBits v).length := by rwa [toBits_length]
  rw [List.getElem?_eq_getElem hlen, toBits_getElem v hlen, pos_eq_shift, Nat.sub_sub,
    Nat.add_comm 1 i]

/-! ## The rule of R44 -/

@[simp] theorem pos_permute {n m : Nat} (table : Vector Nat n) (x : BitVec m) (i : Fin n) :
    pos (permute table x) (i.val + 1) = pos x (table.get i) := by
  rw [permute, pos_fromBits (by simp) (by simp)]
  simp [Vector.get]

/-- Settles O20: a position is the bit the statement numbers, and `permute` lists the bits it copies. -/
theorem permuteTakesTablePositions : Obligations.PermuteTakesTablePositions :=
  ⟨fun _ _ table x i => ⟨pos_permute table x i, pos_permute table x i⟩,
    fun _ _ _ _ => rfl, by decide⟩

/-! ## Linearity (R54) -/

@[simp] theorem permute_xor {n m : Nat} (table : Vector Nat n) (a b : BitVec m) :
    permute table (a ^^^ b) = permute table a ^^^ permute table b :=
  eq_of_pos_eq fun i hi => by simp [pos_permute table _ ⟨i, hi⟩]

@[simp] theorem permute_zero {n m : Nat} (table : Vector Nat n) :
    permute table (0#m) = 0#n :=
  eq_of_pos_eq fun i hi => by simp [pos_permute table _ ⟨i, hi⟩]

/-- Settles O27: each output position copies one input position, of a XOR as of 0. -/
theorem permuteCommutesWithXor : Obligations.PermuteCommutesWithXor :=
  fun _ _ table a b => ⟨permute_xor table a b, permute_zero table⟩

/-! ## Wiring lines in bit numbers -/

/-- The lines `y[n-i] = x[m-t_i]` of a table for inputs of width `m`, from the leftmost output bit. -/
def wiring {n : Nat} (m : Nat) (table : Vector Nat n) : List (Nat × Nat) :=
  (List.finRange n).map fun i => (n - (i.val + 1), m - table.get i)

theorem permute_wiring {n m : Nat} (table : Vector Nat n) (x : BitVec m) :
    ∀ q ∈ wiring m table, (permute table x).getLsbD q.1 = x.getLsbD q.2 := by
  rw [wiring, List.forall_mem_map]
  exact fun i _ => pos_permute table x i

/-- The input bits that a table copies for inputs of width `m`. -/
def copiedBits {n : Nat} (m : Nat) (table : Vector Nat n) : List Nat :=
  (wiring m table).map Prod.snd

/-- A wiring sees an input's copied bits and nothing else. -/
theorem permute_eq_iff {n m : Nat} (table : Vector Nat n) (x y : BitVec m) :
    permute table x = permute table y ↔
      ∀ j ∈ copiedBits m table, x.getLsbD j = y.getLsbD j := by
  rw [copiedBits, List.forall_mem_map, wiring, List.forall_mem_map]
  refine ⟨fun h i _ => ?_, fun h => eq_of_pos_eq fun i hi => ?_⟩
  · have hpos : pos (permute table x) (i.val + 1) = pos (permute table y) (i.val + 1) := by rw [h]
    rwa [pos_permute, pos_permute] at hpos
  · rw [pos_permute table x ⟨i, hi⟩, pos_permute table y ⟨i, hi⟩]
    exact h ⟨i, hi⟩ (List.mem_finRange _)

theorem permute_injective {n m : Nat} {table : Vector Nat n}
    (h : List.range m ⊆ copiedBits m table) :
    Function.Injective (permute table : BitVec m → BitVec n) := fun x y hxy =>
  BitVec.eq_of_getLsbD_eq fun j hj =>
    (permute_eq_iff table x y).mp hxy j (h (List.mem_range.mpr hj))

/-- A wiring of as many bits out as in is a bijection if it copies every input bit. -/
theorem permute_bijective {n : Nat} {table : Vector Nat n}
    (h : List.range n ⊆ copiedBits n table) :
    Function.Bijective (permute table : BitVec n → BitVec n) :=
  Finite.injective_iff_bijective.mp (permute_injective h)

/-! ## P10 (R45) -/

theorem p10_bijective : Function.Bijective p10 := permute_bijective (by decide)

/-- Settles O21: P10 copies every input bit, and its lines are those of its table. -/
theorem p10Wiring : Obligations.P10Wiring :=
  ⟨fun x => ⟨rfl, permute_wiring p10Table x⟩, p10_bijective,
    by decide, permute_zero p10Table, by decide, by decide, by decide⟩

/-! ## P8 (R46) -/

theorem extractLsb'_zero_eq_iff {w : Nat} (k : Nat) (x y : BitVec w) :
    x.extractLsb' 0 k = y.extractLsb' 0 k ↔ ∀ j < k, x.getLsbD j = y.getLsbD j := by
  refine ⟨fun h j hj => ?_, fun h => BitVec.eq_of_getLsbD_eq fun j hj => ?_⟩
  · have hbit := congrArg (BitVec.getLsbD · j) h
    simpa [hj] using hbit
  · simp [h j hj]

theorem p8_eq_iff (x y : BitVec 10) : p8 x = p8 y ↔ x.extractLsb' 0 8 = y.extractLsb' 0 8 := by
  have hcopied : (copiedBits 10 p8Table).Perm (List.range 8) := by decide
  rw [p8, p8, permute_eq_iff, extractLsb'_zero_eq_iff]
  simp only [hcopied.mem_iff, List.mem_range]

theorem extractLsb'_setWidth_low (low : BitVec 8) : (low.setWidth 10).extractLsb' 0 8 = low := by
  rw [BitVec.extractLsb'_setWidth_of_le (by decide), BitVec.extractLsb'_eq_self]

/-- Each output comes from an input with bits 9 and 8 clear: on those P8 is a bijection. -/
theorem exists_low_p8_eq (y : RoundKey) : ∃ low : BitVec 8, p8 (low.setWidth 10) = y := by
  have hinj : Function.Injective fun low : BitVec 8 => p8 (low.setWidth 10) := fun low low' h => by
    simpa only [extractLsb'_setWidth_low] using (p8_eq_iff _ _).mp h
  exact Finite.surjective_of_injective hinj y

theorem p8_surjective : Function.Surjective p8 := fun y =>
  let ⟨low, h⟩ := exists_low_p8_eq y
  ⟨low.setWidth 10, h⟩

/-- Settles O22: P8 copies bits 7 to 0 and no others, each once. -/
theorem p8Wiring : Obligations.P8Wiring :=
  ⟨fun x => ⟨rfl, permute_wiring p8Table x⟩, p8_surjective, p8_eq_iff,
    by decide, permute_zero p8Table, by decide, by decide, by decide, by decide⟩

/-! ## P4 and EP (R47, R50) -/

theorem p4_bijective : Function.Bijective p4 := permute_bijective (by decide)

theorem ep_injective : Function.Injective ep := permute_injective (by decide)

/-- Bits 6 and 0 of EP copy the same input bit, so no image has one of them without the other. -/
theorem ep_not_surjective : ¬ Function.Surjective ep := fun h => by
  obtain ⟨x, hx⟩ := h 0x01#8
  have h6 : (ep x).getLsbD 6 = x.getLsbD 3 := permute_wiring epTable x (6, 3) (by decide)
  have h0 : (ep x).getLsbD 0 = x.getLsbD 3 := permute_wiring epTable x (0, 3) (by decide)
  have hsame : (ep x).getLsbD 6 = (ep x).getLsbD 0 := h6.trans h0.symm
  rw [hx] at hsame
  exact absurd hsame (by decide)

/-- Settles O23: P4 and EP both copy every input bit, EP some of them twice. -/
theorem p4AndEpWiring : Obligations.P4AndEpWiring :=
  ⟨fun x => ⟨rfl, permute_wiring p4Table x⟩, p4_bijective, by decide,
    fun x => ⟨rfl, permute_wiring epTable x⟩, ep_injective, ep_not_surjective, by decide⟩

/-! ## IP and its inverse (R48, R49, R51) -/

/-- Settles O24: the lines of each are those of its table. -/
theorem ipAndIpInvWiring : Obligations.IpAndIpInvWiring :=
  ⟨fun x => ⟨rfl, permute_wiring ipTable x⟩, by decide,
    fun x => ⟨rfl, permute_wiring ipInvTable x⟩, by decide⟩

/-- Settles O25: each function undoes the other, and so do their tables. -/
theorem ipAndIpInvAreInverse : Obligations.IpAndIpInvAreInverse :=
  ⟨ipInv_ip, ip_ipInv, by decide⟩

/-! ## Classification (R52) -/

theorem ip_bijective : Function.Bijective ip :=
  Function.bijective_iff_has_inverse.mpr ⟨ipInv, ipInv_ip, ip_ipInv⟩

theorem ipInv_bijective : Function.Bijective ipInv :=
  Function.bijective_iff_has_inverse.mpr ⟨ip, ip_ipInv, ipInv_ip⟩

/-- The four values with given low eight bits. -/
theorem extractLsb'_low_eq_iff (x : BitVec 10) (low : BitVec 8) :
    x.extractLsb' 0 8 = low ↔
      ∃ top : BitVec 2, x = (top.setWidth 10 <<< 8) ||| low.setWidth 10 := by
  have happend (top : BitVec 2) :
      (top.setWidth 10 <<< 8) ||| low.setWidth 10 = top ++ low :=
    BitVec.setWidth_append_eq_shiftLeft_setWidth_or.symm.trans (BitVec.setWidth_eq _)
  constructor
  · rintro rfl
    exact ⟨x.extractLsb' 8 2,
      (BitVec.extractLsb'_append_extractLsb' (w := 2) (len := 8)).symm.trans (happend _).symm⟩
  · rintro ⟨top, rfl⟩
    rw [happend]
    exact BitVec.extractLsb'_append_eq_right

/-- Settles O26: P8's inputs for one output are those with the same bits 7 to 0. -/
theorem permutationClassification : Obligations.PermutationClassification := by
  refine ⟨p10_bijective, p4_bijective, ip_bijective, ipInv_bijective, p8_surjective, fun y => ?_,
    ep_injective, ep_not_surjective⟩
  obtain ⟨low, rfl⟩ := exists_low_p8_eq y
  refine ⟨low, fun x => ?_⟩
  rw [p8_eq_iff, extractLsb'_setWidth_low, extractLsb'_low_eq_iff]

end Sys2Proof.Proofs.Permutations
end

