-- ==== Sys2Proof/Proofs/ShiftSbox.lean ====
section
/-! PROOF. The left circular shifts and the substitution boxes of 41_shift_sbox.md (R55 to R62). A
shift rotates the list of a value's bits, from which its laws follow; a box is read at its row and
column, which are two bits each. -/

namespace Sys2Proof.Proofs.ShiftSbox

open Sys2Proof.Machine Sys2Proof.Proofs.Permutations

/-! ## A shift moves positions around the circle of five (R55, R56) -/

/-- Output position `i + 1` takes the input position `n` places to its right, around the circle. -/
theorem pos_rotateLeft5 {n : Nat} (hn : n < 5) (v : HalfKey) {i : Nat} (hi : i < 5) :
    pos (rotateLeft5 n v) (i + 1) = pos v ((i + n) % 5 + 1) := by
  have hout : 4 - i < 5 := by omega
  by_cases hwrap : i + n < 5
  · have hshift : ¬ 4 - i < n := by omega
    have hindex : 4 - i - n = 4 - (i + n) := by omega
    have hright : 5 ≤ 5 - n + (4 - i) := by omega
    have hin : 4 - (i + n) < 5 := by omega
    simp [pos, bit, rotateLeft5, Nat.mod_eq_of_lt hwrap, hout, hshift, hindex, hin,
      BitVec.getLsbD_of_ge v _ hright]
  · have hmod : (i + n) % 5 = i + n - 5 := by omega
    have hshift : 4 - i < n := by omega
    have hindex : 5 - n + (4 - i) = 4 - (i + n - 5) := by omega
    simp [pos, bit, rotateLeft5, hmod, hshift, hindex]

/-- The wiring lines of a shift, from the leftmost output bit. -/
theorem rotateLeft5_lines {n : Nat} (hn : n < 5) (v : HalfKey) :
    ∀ q ∈ (List.range 5).map (fun i => (5 - (i + 1), 5 - ((i + n) % 5 + 1))),
      (rotateLeft5 n v).getLsbD q.1 = v.getLsbD q.2 := by
  rw [List.forall_mem_map]
  exact fun i hi => pos_rotateLeft5 hn v (List.mem_range.mp hi)

theorem toBits_rotateLeft5 {n : Nat} (hn : n < 5) (v : HalfKey) :
    toBits (rotateLeft5 n v) = (toBits v).rotate n :=
  List.ext_getElem (by simp) fun i hi hrot => by
    rw [List.getElem_rotate, toBits_getElem _ hi, toBits_getElem]
    simpa using pos_rotateLeft5 hn v (by simpa using hi)

/-- The mask of R55 and R56 is the width of the type. -/
theorem rotateLeft5_toNat (n : Nat) (v : HalfKey) :
    (rotateLeft5 n v).toNat = ((v.toNat <<< n) ||| (v.toNat >>> (5 - n))) &&& 0b11111 := by
  have hright : v.toNat >>> (5 - n) < 2 ^ 5 := (v >>> (5 - n)).isLt
  rw [show 0b11111 = 2 ^ 5 - 1 from rfl, Nat.and_two_pow_sub_one_eq_mod, Nat.or_mod_two_pow,
    Nat.mod_eq_of_lt hright]
  rfl

/-- Settles O28: each clause is the law of `rotateLeft5` at 1 and at 2. -/
theorem leftShiftsRotate : Obligations.LeftShiftsRotate :=
  ⟨fun v => ⟨rotateLeft5_toNat 1 v, toBits_rotateLeft5 (by decide) v,
      rotateLeft5_lines (n := 1) (by decide) v⟩, by decide,
    fun v => ⟨rotateLeft5_toNat 2 v, toBits_rotateLeft5 (by decide) v,
      rotateLeft5_lines (n := 2) (by decide) v⟩, by decide⟩

/-! ## The laws of the rotations (R57) -/

theorem toBits_injective {w : Nat} : Function.Injective (toBits : BitVec w → List Bool) :=
  Function.LeftInverse.injective (g := fromBits w) fromBits_toBits

theorem toBits_ls1 (v : HalfKey) : toBits (ls1 v) = (toBits v).rotate 1 :=
  toBits_rotateLeft5 (by decide) v

theorem toBits_ls2 (v : HalfKey) : toBits (ls2 v) = (toBits v).rotate 2 :=
  toBits_rotateLeft5 (by decide) v

theorem ls2_eq_ls1_ls1 (v : HalfKey) : ls2 v = ls1 (ls1 v) :=
  toBits_injective <| by rw [toBits_ls2, toBits_ls1, toBits_ls1, List.rotate_rotate]

theorem ls1_five_times (v : HalfKey) : ls1 (ls1 (ls1 (ls1 (ls1 v)))) = v :=
  toBits_injective <| by
    simp only [toBits_ls1, List.rotate_rotate]
    exact List.rotate_length (toBits v)

theorem rotateLeft5_bijective {n : Nat} (hn : n < 5) : Function.Bijective (rotateLeft5 n) := by
  refine Finite.injective_iff_bijective.mp fun v u h => ?_
  have hbits := congrArg toBits h
  rw [toBits_rotateLeft5 hn, toBits_rotateLeft5 hn] at hbits
  exact toBits_injective (List.rotate_injective n hbits)

theorem rotateLeft5_xor {n : Nat} (hn : n < 5) (a b : HalfKey) :
    rotateLeft5 n (a ^^^ b) = rotateLeft5 n a ^^^ rotateLeft5 n b :=
  eq_of_pos_eq fun i hi => by simp only [pos_xor, pos_rotateLeft5 hn _ hi]

/-- Settles O29: LS1 and LS2 rotate the list of bits by 1 and by 2, so they compose by adding and keep
how many bits are 1; LS2 being LS1 twice, the two in either order are LS1 three times. -/
theorem rotationLaws : Obligations.RotationLaws := by
  refine ⟨fun v => ⟨ls2_eq_ls1_ls1 v, ?_, ls1_five_times v, ?_, ?_⟩, by decide,
    rotateLeft5_bijective (by decide), rotateLeft5_bijective (by decide),
    fun a b => ⟨rotateLeft5_xor (by decide) a b, rotateLeft5_xor (by decide) a b⟩⟩
  · rw [ls2_eq_ls1_ls1, ls2_eq_ls1_ls1]
  · rw [toBits_ls1, (List.rotate_perm _ _).count_eq]
  · rw [toBits_ls2, (List.rotate_perm _ _).count_eq]

/-! ## Row and column (R58) -/

/-- Two bits side by side fit a crumb, the first the high one. -/
theorem toNat_crumb_of_bits (high low : Bool) :
    (BitVec.ofNat 2 (2 * high.toNat + low.toNat)).toNat = 2 * high.toNat + low.toNat := by
  cases high <;> cases low <;> rfl

theorem sboxRow_toNat (x : HalfBlock) :
    (sboxRow x).toNat = 2 * (x.getLsbD 3).toNat + (x.getLsbD 0).toNat :=
  toNat_crumb_of_bits (vec x 0) (vec x 3)

theorem sboxCol_toNat (x : HalfBlock) :
    (sboxCol x).toNat = 2 * (x.getLsbD 2).toNat + (x.getLsbD 1).toNat :=
  toNat_crumb_of_bits (vec x 1) (vec x 2)

/-- Settles O30: vector index `i` of four is bit number `3 - i`. -/
theorem sboxIndexFormation : Obligations.SboxIndexFormation :=
  fun x => ⟨sboxRow_toNat x, sboxCol_toNat x⟩

/-! ## The tables (R59, R60) -/

/-- A substitution table as rows of numbers. -/
def tableRows (table : SboxTable) : List (List Nat) :=
  table.toList.map fun row => row.toList.map BitVec.toNat

/-- A row and a column number are always in range (R63), so the lookup never meets its defaults. -/
theorem sboxEntry_toNat (table : SboxTable) (row col : Crumb) (d : Nat) :
    (sboxEntry table row col).toNat = ((tableRows table).getD row.toNat []).getD col.toNat d := by
  have hrow : row.toNat < (tableRows table).length := by simp [tableRows, row.isLt]
  have hcol : col.toNat < (tableRows table)[row.toNat].length := by simp [tableRows, col.isLt]
  rw [List.getD_eq_getElem _ _ hrow, List.getD_eq_getElem _ _ hcol]
  simp only [tableRows, List.getElem_map, Vector.getElem_toList]
  rfl

/-- Settles O31: the entry at the row and column, and the sixteen entries in order. -/
theorem sboxTables : Obligations.SboxTables :=
  ⟨fun x => ⟨sboxEntry_toNat s0Table (sboxRow x) (sboxCol x) 4,
    sboxEntry_toNat s1Table (sboxRow x) (sboxCol x) 4⟩, by decide, by decide⟩

/-! ## The ROM view and the properties of the boxes (R61, R62) -/

theorem s0_eq_romEntry : ∀ x : HalfBlock, s0 x = romEntry 0x72D8397E#32 x := by decide

theorem s1_eq_romEntry : ∀ x : HalfBlock, s1 x = romEntry 0x249FE143#32 x := by decide

theorem s0_not_injective : ¬ Function.Injective s0 := fun h =>
  absurd (h (show s0 0x0#4 = s0 0x5#4 by decide)) (by decide)

theorem s1_not_injective : ¬ Function.Injective s1 := fun h =>
  absurd (h (show s1 0x0#4 = s1 0x3#4 by decide)) (by decide)

theorem s0_surjective : Function.Surjective s0 := by decide

theorem s1_surjective : Function.Surjective s1 := by decide

/-- Settles O32: the boxes agree with their packed words at the sixteen addresses; `S0(0) = 1` and
`S1(1 ^ 2) = 0`, where `S1(1) = 2` and `S1(2) = 1`, are not linear. -/
theorem sboxRomAndProperties : Obligations.SboxRomAndProperties :=
  ⟨fun x => ⟨s0_eq_romEntry x, s1_eq_romEntry x⟩, by decide, by decide,
    s0_not_injective, s1_not_injective, s0_surjective, s1_surjective,
    ⟨0x0#4, 0x0#4, by decide⟩, ⟨0x1#4, 0x2#4, by decide⟩⟩

end Sys2Proof.Proofs.ShiftSbox
end

