-- ==== Sys2Proof/Proofs/KeySchedule.lean ====
section
/-! PROOF. The key scheduler of 42_key_schedule.md (R64 to R70). Every step is a wiring (R69), and
wirings compose by composing their tables; so K1 and K2 are one wiring each, and which key bits
those two tables copy decides everything R70 says of the pair. -/

namespace Sys2Proof.Proofs.KeySchedule

open Sys2Proof.Machine Sys2Proof.Laws Sys2Proof.Proofs.Scope Sys2Proof.Proofs.Permutations
  Sys2Proof.Proofs.ShiftSbox

/-! ## Positions of the halves (R5) -/

theorem pos_split_left {h : Nat} (v : BitVec (h + h)) {i : Nat} (hi : i < h) :
    pos (split v).left (i + 1) = pos v (i + 1) := by
  have hlow : h - (i + 1) < h := by omega
  have hbit : h + (h - (i + 1)) = h + h - (i + 1) := by omega
  simp only [pos, bit, split_left_getLsbD, hlow, hbit, decide_true, Bool.true_and]

theorem pos_split_right {h : Nat} (v : BitVec (h + h)) {i : Nat} (hi : i < h) :
    pos (split v).right (i + 1) = pos v (h + i + 1) := by
  have hlow : h - (i + 1) < h := by omega
  have hbit : h + h - (h + i + 1) = h - (i + 1) := by omega
  simp only [pos, bit, split_right_getLsbD, hlow, hbit, decide_true, Bool.true_and]

theorem pos_concat_left {h : Nat} (p : SplitPair h) {i : Nat} (hi : i < h) :
    pos (concat p) (i + 1) = pos p.left (i + 1) := by
  rw [← pos_split_left _ hi, split_concat]

theorem pos_concat_right {h : Nat} (p : SplitPair h) {i : Nat} (hi : i < h) :
    pos (concat p) (h + i + 1) = pos p.right (i + 1) := by
  rw [← pos_split_right _ hi, split_concat]

/-! ## Wirings compose -/

/-- The table of `second` applied to the output of `first`: entry `t` of `second` stands for the
input that entry `t` of `first` names. -/
def composeTables {n k : Nat} (first : Vector Nat n) (second : Vector Nat k) : Vector Nat k :=
  ⟨(second.toList.map fun t => first.toList.getD (t - 1) 0).toArray, by simp⟩

/-- A composed table is the composition if `second` names positions of its input only (R44). -/
theorem permute_permute {n k m : Nat} {first : Vector Nat n} {second : Vector Nat k}
    (hrange : ∀ t ∈ second.toList, 1 ≤ t ∧ t ≤ n) (x : BitVec m) :
    permute second (permute first x) = permute (composeTables first second) x := by
  have hentry : ∀ t ∈ second.toList,
      pos (permute first x) t = pos x (first.toList.getD (t - 1) 0) := by
    intro t ht
    obtain ⟨hpos, hle⟩ := hrange t ht
    have hlt : t - 1 < n := by omega
    have hcopy := pos_permute first x ⟨t - 1, hlt⟩
    rw [Nat.sub_add_cancel hpos] at hcopy
    simpa [Vector.get, List.getD_eq_getElem, hlt] using hcopy
  simp only [permute, composeTables, Vector.toList_mk, List.map_map]
  exact congrArg (fromBits k) (List.map_congr_left hentry)

theorem toBits_permute {n m : Nat} (table : Vector Nat n) (x : BitVec m) :
    toBits (permute table x) = table.toList.map (pos x) := by
  have hlen : (table.toList.map (pos x)).length = n := by simp
  have hbits := toBits_fromBits (table.toList.map (pos x))
  rwa [hlen] at hbits

/-- Two wirings of one input agree exactly when they copy the same bits in the same order. -/
theorem permute_eq_permute_iff {n m : Nat} (table table' : Vector Nat n) (x : BitVec m) :
    permute table x = permute table' x ↔
      table.toList.map (pos x) = table'.toList.map (pos x) := by
  rw [← toBits_permute, ← toBits_permute, toBits_injective.eq_iff]

/-! ## Each step of the scheduler is a wiring (R64 to R68) -/

/-- A left shift of each five-bit half by `n`, as a table of ten positions (R55, R56, R65). -/
def shiftHalvesTable (n : Nat) : Vector Nat 10 :=
  Vector.ofFn fun i => if i.val < 5 then (i.val + n) % 5 + 1 else 5 + (i.val - 5 + n) % 5 + 1

theorem shiftHalvesTable_get (n : Nat) (i : Fin 10) : (shiftHalvesTable n).get i =
    if i.val < 5 then (i.val + n) % 5 + 1 else 5 + (i.val - 5 + n) % 5 + 1 :=
  Vector.getElem_ofFn i.isLt

theorem concat_onHalves_rotateLeft5 {n : Nat} (hn : n < 5) (p : SplitPair 5) :
    concat (onHalves (rotateLeft5 n) p) = permute (shiftHalvesTable n) (concat p) := by
  refine eq_of_pos_eq fun i hi => ?_
  rw [pos_permute (shiftHalvesTable n) (concat p) ⟨i, hi⟩, shiftHalvesTable_get]
  by_cases hleft : i < 5
  · rw [pos_concat_left _ hleft, onHalves_left, pos_rotateLeft5 hn _ hleft,
      ← pos_concat_left p (Nat.mod_lt _ (by decide))]
    simp only [hleft, if_true]
  · obtain ⟨j, rfl⟩ := Nat.exists_eq_add_of_le (Nat.le_of_not_lt hleft)
    rw [pos_concat_right _ (by omega), onHalves_right, pos_rotateLeft5 hn _ (by omega),
      ← pos_concat_right p (Nat.mod_lt _ (by decide))]
    simp only [hleft, if_false, Nat.add_sub_cancel_left]

/-- The P10-LS1 state, in ten bits (R65). -/
theorem concat_keyState1 (key : Key) :
    concat (keyState1 key) = permute (shiftHalvesTable 1) (p10 key) :=
  (concat_onHalves_rotateLeft5 (by decide) (keyState0 key)).trans <| by rw [keyState0, concat_split]

/-- The state after LS2, in ten bits (R67). -/
theorem concat_keyState2 (key : Key) :
    concat (keyState2 key) =
      permute (shiftHalvesTable 2) (permute (shiftHalvesTable 1) (p10 key)) :=
  (concat_onHalves_rotateLeft5 (by decide) (keyState1 key)).trans <| by rw [concat_keyState1]

/-! ## The composed wiring (R69) -/

/-- The key position that each position of K1 takes (R69). -/
def k1Table : Vector Nat 8 := #v[1, 7, 9, 4, 8, 3, 10, 6]

/-- The key position that each position of K2 takes (R69). -/
def k2Table : Vector Nat 8 := #v[8, 3, 6, 5, 10, 2, 9, 1]

theorem keyK1_eq_permute (key : Key) : keyK1 key = permute k1Table key := by
  have htable :
      composeTables p10Table (composeTables (shiftHalvesTable 1) p8Table) = k1Table := by decide
  rw [keyK1, concat_keyState1, p8, p10, permute_permute (by decide), permute_permute (by decide),
    htable]

theorem keyK2_eq_permute (key : Key) : keyK2 key = permute k2Table key := by
  have htable : composeTables p10Table (composeTables (shiftHalvesTable 1)
      (composeTables (shiftHalvesTable 2) p8Table)) = k2Table := by decide
  rw [keyK2, concat_keyState2, p8, p10, permute_permute (by decide), permute_permute (by decide),
    permute_permute (by decide), htable]

theorem keygen_eq_permute (key : Key) :
    keygen key = (permute k1Table key, permute k2Table key) :=
  Prod.ext (keyK1_eq_permute key) (keyK2_eq_permute key)

/-- Settles O33: the five steps are the definition; the bit lines are those of the composed
tables. -/
theorem keygenFiveStepsAndComposedWiring : Obligations.KeygenFiveStepsAndComposedWiring := by
  refine ⟨fun _ => rfl, keygen_eq_permute, fun key => ?_, by decide, by decide⟩
  rw [keygen_eq_permute]
  exact ⟨permute_wiring k1Table key, permute_wiring k2Table key⟩

/-! ## Which keys share a round key (R70) -/

/-- The bits that a mask keeps. -/
def maskBits {w : Nat} (mask : BitVec w) : List Nat := (List.range w).filter mask.getLsbD

theorem and_mask_eq_iff {w : Nat} (mask x y : BitVec w) :
    x &&& mask = y &&& mask ↔ ∀ j ∈ maskBits mask, x.getLsbD j = y.getLsbD j := by
  simp only [maskBits, List.mem_filter, List.mem_range, and_imp]
  refine ⟨fun h j _ hmask => ?_, fun h => BitVec.eq_of_getLsbD_eq fun j hj => ?_⟩
  · have hbit := congrArg (BitVec.getLsbD · j) h
    simpa [hmask] using hbit
  · cases hmask : mask.getLsbD j with
    | false => simp [hmask]
    | true => simp [hmask, h j hj hmask]

/-- Two inputs have the same output exactly when they agree under the mask of the copied bits. -/
theorem permute_eq_iff_and_mask_eq {n m : Nat} {table : Vector Nat n} {mask : BitVec m}
    (h : (copiedBits m table).Perm (maskBits mask)) (x y : BitVec m) :
    permute table x = permute table y ↔ x &&& mask = y &&& mask := by
  simp only [permute_eq_iff, and_mask_eq_iff, h.mem_iff]

/-- K1 copies every key bit but 8 and 5. -/
theorem keyK1_eq_iff (k k' : Key) :
    keyK1 k = keyK1 k' ↔ k &&& 0x2DF#10 = k' &&& 0x2DF#10 := by
  rw [keyK1_eq_permute, keyK1_eq_permute, permute_eq_iff_and_mask_eq]
  decide

/-- K2 copies every key bit but 6 and 3. -/
theorem keyK2_eq_iff (k k' : Key) :
    keyK2 k = keyK2 k' ↔ k &&& 0x3B7#10 = k' &&& 0x3B7#10 := by
  rw [keyK2_eq_permute, keyK2_eq_permute, permute_eq_iff_and_mask_eq]
  decide

/-- Every key bit reaches K1 or K2. -/
theorem keygen_injective : Function.Injective keygen := by
  have hcovered : List.range 10 ⊆ copiedBits 10 k1Table ++ copiedBits 10 k2Table := by decide
  intro k k' h
  rw [keygen_eq_permute, keygen_eq_permute, Prod.mk.injEq, permute_eq_iff, permute_eq_iff] at h
  obtain ⟨h1, h2⟩ := h
  refine BitVec.eq_of_getLsbD_eq fun j hj => ?_
  exact (List.mem_append.mp (hcovered (List.mem_range.mpr hj))).elim (h1 j) (h2 j)

/-- Up to P8 the scheduler only reorders ten bits. -/
theorem keyK1_surjective : Function.Surjective keyK1 := by
  have hshift := permute_bijective (table := shiftHalvesTable 1) (by decide)
  have hsteps : keyK1 = p8 ∘ permute (shiftHalvesTable 1) ∘ p10 :=
    funext fun key => congrArg p8 (concat_keyState1 key)
  rw [hsteps]
  exact p8_surjective.comp (hshift.surjective.comp p10_bijective.surjective)

theorem keyK2_surjective : Function.Surjective keyK2 := by
  have hshift1 := permute_bijective (table := shiftHalvesTable 1) (by decide)
  have hshift2 := permute_bijective (table := shiftHalvesTable 2) (by decide)
  have hsteps : keyK2 = p8 ∘ permute (shiftHalvesTable 2) ∘ permute (shiftHalvesTable 1) ∘ p10 :=
    funext fun key => congrArg p8 (concat_keyState2 key)
  rw [hsteps]
  exact p8_surjective.comp
    (hshift2.surjective.comp (hshift1.surjective.comp p10_bijective.surjective))

theorem keygen_xor (a b : Key) :
    keygen (a ^^^ b) = ((keygen a).1 ^^^ (keygen b).1, (keygen a).2 ^^^ (keygen b).2) := by
  simp only [keygen_eq_permute, permute_xor]

/-- Settles O34: the two tables copy all the key bits between them, each eight different ones. -/
theorem keygenIsOneToOne : Obligations.KeygenIsOneToOne :=
  ⟨keygen_injective, keyK1_eq_iff, keyK2_eq_iff,
    fun v => ⟨keyK1_surjective v, keyK2_surjective v⟩, keygen_xor⟩

/-! ## The keys with equal round keys (R70) -/

/-- The key whose positions 1, 6, 8, 9 and 10 are `a`, whose positions 2, 3 and 7 are `b` and whose
positions 4 and 5 are `c`. -/
def tiedKey (a b c : Bool) : Key := fromBits 10 [a, b, b, c, c, a, b, a, a, a]

/-- `K1 = K2` equates the two key positions in each column of R69's table: three groups of equal
positions are left. -/
theorem eq_tiedKey_of_keyK1_eq_keyK2 {key : Key} (h : keyK1 key = keyK2 key) :
    key = tiedKey (pos key 1) (pos key 2) (pos key 4) := by
  rw [keyK1_eq_permute, keyK2_eq_permute, permute_eq_permute_iff] at h
  simp only [k1Table, k2Table, Vector.toList_mk, List.map_cons, List.map_nil, List.cons.injEq,
    and_true] at h
  obtain ⟨h1_8, h7_3, h9_6, h4_5, h8_10, h3_2, -, h6_1⟩ := h
  have hbits : toBits key = [pos key 1, pos key 2, pos key 2, pos key 4, pos key 4, pos key 1,
      pos key 2, pos key 1, pos key 1, pos key 1] :=
    calc toBits key = [pos key 1, pos key 2, pos key 3, pos key 4, pos key 5, pos key 6, pos key 7,
          pos key 8, pos key 9, pos key 10] := rfl
      _ = _ := by rw [h7_3, h3_2, ← h4_5, h9_6, h6_1, ← h8_10, ← h1_8]
  rw [tiedKey, ← hbits, fromBits_toBits]

/-- The eight keys of R70. -/
def equalRoundKeyKeys : List Key :=
  [0#10, 96#10, 392#10, 488#10, 535#10, 631#10, 927#10, 1023#10]

theorem tiedKey_mem : ∀ a b c : Bool, tiedKey a b c ∈ equalRoundKeyKeys := by decide

theorem keyK1_eq_keyK2_iff (key : Key) : keyK1 key = keyK2 key ↔ key ∈ equalRoundKeyKeys := by
  have hvalues : equalRoundKeyKeys.map keyK1 = equalRoundKeyKeys.map keyK2 := by decide
  refine ⟨fun h => ?_, fun h => List.map_inj_left.mp hvalues key h⟩
  rw [eq_tiedKey_of_keyK1_eq_keyK2 h]
  exact tiedKey_mem ..

/-- Settles O35: the values are computed; equal round keys leave three groups of key bits free. -/
theorem keygenCornerKeys : Obligations.KeygenCornerKeys :=
  ⟨by decide, by decide, by decide, by decide, keyK1_eq_keyK2_iff⟩

end Sys2Proof.Proofs.KeySchedule
end

