-- ==== Sys2Proof/Proofs/Round.lean ====
section
/-! PROOF. The round function of 43_round_function.md (R71 to R75). F is the substitution of the
key-mixed expansion, so it sees the round key through `EP(r) ^ sk` only; fk XORs F of the right half
into the left half, whatever that half is, and XORing it twice cancels. -/

namespace Sys2Proof.Proofs.Round

open Sys2Proof.Machine Sys2Proof.Safety Sys2Proof.Laws Sys2Proof.Proofs.Scope
  Sys2Proof.Proofs.Encoding Sys2Proof.Proofs.Permutations

/-! ## The keyed mapping F (R71) -/

/-- The two S-box outputs enter P4 as `(s0 << 2) | s1`, the concatenation of a split pair (R5). -/
theorem substitute_eq_shiftLeft_or (x : BitVec 8) :
    substitute x = p4 (((s0 (x.extractLsb' 4 4)).setWidth 4 <<< 2) |||
      (s1 (x.extractLsb' 0 4)).setWidth 4) :=
  congrArg p4 (concat_eq_shiftLeft_or
    { left := s0 (x.extractLsb' 4 4), right := s1 (x.extractLsb' 0 4) })

theorem ep_zero : ep 0#4 = 0#8 := permute_zero epTable

theorem roundF_zero (sk : RoundKey) : roundF 0#4 sk = substitute sk := by
  rw [roundF, ep_zero, BitVec.zero_xor]

theorem roundF_eq_roundF_zero (r : HalfBlock) (sk : RoundKey) :
    roundF r sk = roundF 0#4 (sk ^^^ ep r) := by
  rw [roundF_zero, BitVec.xor_comm, roundF]

theorem roundF_zeroKey_eq_eight_iff : ∀ r : HalfBlock,
    roundF r 0x00#8 = 0x8#4 ↔ r ∈ [0x0#4, 0x7#4, 0x9#4] := by decide

/-- Settles O36: the steps are the definition's with the append as shift and or, the mixed value
is all F reads, and the four tables are computed. -/
theorem roundMapping : Obligations.RoundMapping :=
  ⟨fun r sk => substitute_eq_shiftLeft_or (ep r ^^^ sk), roundF_eq_roundF_zero,
    by decide, by decide, by decide, by decide, roundF_zeroKey_eq_eight_iff⟩

/-! ## The round primitive fk (R72, R74) -/

/-- The left half is flipped by F of the right half, whatever the left half is (R72). -/
theorem fk_left_xor_left (p : SplitPair 4) (sk : RoundKey) :
    (fk p sk).left ^^^ p.left = roundF p.right sk := by
  rw [fk_left, BitVec.xor_comm, ← BitVec.xor_assoc, BitVec.xor_self, BitVec.zero_xor]

/-- Settles O37: both left halves are flipped by the same F; the examples are computed. -/
theorem fkTransformsLeftHalfOnly : Obligations.FkTransformsLeftHalfOnly := by
  refine ⟨fun _ _ _ => rfl, fun l l' r sk => ?_, by decide, by decide, by decide, by decide⟩
  exact (fk_left_xor_left ⟨l, r⟩ sk).trans (fk_left_xor_left ⟨l', r⟩ sk).symm

theorem fk_involutive (sk : RoundKey) : Function.Involutive (fun p => fk p sk) :=
  fun p => fk_fk p sk

/-- Settles O39: an involution is a bijection. -/
theorem fkIsItsOwnInverse : Obligations.FkIsItsOwnInverse :=
  ⟨fk_fk, fun sk => (fk_involutive sk).bijective⟩

/-! ## The half-swap SW (R73, R75) -/

/-- The swapped halves of an 8-bit value, concatenated (R5, R73). -/
theorem swBlock_eq_shiftLeft_or (v : Block) :
    swBlock v = ((v.extractLsb' 0 4).setWidth 8 <<< 4) ||| (v.extractLsb' 4 4).setWidth 8 :=
  concat_eq_shiftLeft_or (sw (split (h := 4) v))

/-- Settles O38: the pair's swap is the definition, and the block's is its concatenation. -/
theorem halfSwap : Obligations.HalfSwap :=
  ⟨fun _ _ => rfl, swBlock_eq_shiftLeft_or, sw_sw⟩

end Sys2Proof.Proofs.Round
end

