-- ==== Sys2Proof/Proofs/CipherCommands.lean ====
section
/-! PROOF. The operation and the commands of 44_cipher_commands.md (R78 to R88). ENC and DEC run
one operation with the round keys in opposite orders, and one direction undoes the other; a command
at an edge is the last row of R12, so its result is a function of its own operands, one command or a
stream of them. For R87: F under a round key, as a function of the right half, gives that round key
away; two rounds give away F under both of theirs; and IP and IP⁻¹ hide nothing. So two keys and
directions act alike on all blocks exactly when they put the same round keys in the same order. -/

namespace Sys2Proof.Proofs.CipherCommands

open Sys2Proof.Machine Sys2Proof.Safety Sys2Proof.Laws Sys2Proof.Proofs.Scope
  Sys2Proof.Proofs.PortStep Sys2Proof.Proofs.Memory Sys2Proof.Proofs.Encoding
  Sys2Proof.Proofs.Permutations Sys2Proof.Proofs.KeySchedule

/-! ## One direction undoes the other (R84) -/

@[simp] theorem decrypt_encrypt (k : Key) (b : Block) :
    transformBlock k (transformBlock k b false) true = b :=
  transformBlock_not_transformBlock k b false

@[simp] theorem encrypt_decrypt (k : Key) (b : Block) :
    transformBlock k (transformBlock k b true) false = b :=
  transformBlock_not_transformBlock k b true

/-- What a block encrypts to decrypts to that block: a decryption is evaluated as an encryption. -/
theorem decrypt_eq_of_encrypt_eq {k : Key} {b c : Block} (h : transformBlock k c false = b) :
    transformBlock k b true = c := by
  rw [← h, decrypt_encrypt]

/-- Settles O45: the first command's result is the second's operand. -/
theorem decryptUndoesEncrypt : Obligations.DecryptUndoesEncrypt := by
  refine ⟨decrypt_encrypt, encrypt_decrypt, fun k b s => ?_, fun k b s => ?_⟩
  · exact ⟨_, _, exec_eq _ s, exec_eq _ _, decrypt_encrypt k b⟩
  · exact ⟨_, _, exec_eq _ s, exec_eq _ _, encrypt_decrypt k b⟩

/-! ## Stages and closed form (R78 to R80) -/

theorem encrypt_642_97 : transformBlock 642#10 0x97#8 false = 0x38#8 := by decide

/-- Settles O40: the direction selects the two round keys, and the stages are the definition's. -/
theorem transformBlockStages : Obligations.TransformBlockStages := by
  refine ⟨fun key block decrypt => ?_, encrypt_642_97⟩
  cases decrypt with
  | false => rfl
  | true => rfl

/-- On 8-bit values the stages between IP and IP⁻¹ split and concatenate once more each, which
cancels (R80). -/
theorem transformBlock_eq_comp (key : Key) (d : Bool) :
    (fun b => transformBlock key b d) =
      ipInv ∘ fkBlock (roundKeys key d).2 ∘ swBlock ∘ fkBlock (roundKeys key d).1 ∘ ip := by
  funext b
  simp only [Function.comp_apply, fkBlock, swBlock, split_concat]
  rfl

/-- Settles O41: the closed form in each direction, with the round keys as wirings of the key. -/
theorem transformBlockClosedForm : Obligations.TransformBlockClosedForm := by
  intro key
  have henc := transformBlock_eq_comp key false
  have hdec := transformBlock_eq_comp key true
  rw [roundKeys_encrypt, keyK1_eq_permute, keyK2_eq_permute] at henc
  rw [roundKeys_decrypt, keyK1_eq_permute, keyK2_eq_permute] at hdec
  exact ⟨keygen_eq_permute key, henc, hdec⟩

/-! ## ENC and DEC (R81, R82) -/

/-- The step that samples a command's encoding runs that command, past the edge. -/
theorem step_presentNext_encode (i : Instr) (s : State) :
    step (presentNext (Inputs.ofCmd (encode i)) s) = .next (afterCommand i (nextEdge s)) := by
  rw [step_presentNext_ofCmd, decode_encode]

theorem encrypt_509_165 : transformBlock 509#10 165#8 false = 0x06#8 := by decide

/-- Settles O42: `afterCommand` writes the result and VALID and keeps every other field. -/
theorem encWritesResult : Obligations.EncWritesResult :=
  ⟨fun k b s => exec_eq (.enc k b) s, fun k b s => step_presentNext_encode (.enc k b) s,
    encrypt_642_97, by decide, by decide, encrypt_509_165⟩

/-- Settles O43: as for ENC; each example is the inverse of an encryption. -/
theorem decWritesResult : Obligations.DecWritesResult :=
  ⟨fun k b s => exec_eq (.dec k b) s, fun k b s => step_presentNext_encode (.dec k b) s,
    decrypt_eq_of_encrypt_eq encrypt_642_97, decrypt_eq_of_encrypt_eq encrypt_509_165,
    decrypt_eq_of_encrypt_eq (by decide)⟩

/-! ## IDLE (R83) -/

theorem foldl_nextOutputs_idle {xs : List Inputs}
    (hxs : ∀ p ∈ xs, p.rst = false ∧ p.start = false) (o : Outputs) :
    xs.foldl nextOutputs o = o :=
  List.foldlRecOn (motive := fun o' => o' = o) xs nextOutputs rfl fun o' ho p hp => by
    obtain ⟨hr, hs⟩ := hxs p hp
    rw [nextOutputs_idle hr hs, ho]

/-- Settles O44: a run is the fold of R12, whose idle row changes nothing. -/
theorem idleHoldsState : Obligations.IdleHoldsState := by
  refine ⟨exec_eq .idle, fun xs rest s hinputs hidle => ?_⟩
  rw [runIsFoldOfPortTable xs rest s hinputs, foldl_nextOutputs_idle hidle, outputs_dout,
    outputs_valid]

/-! ## The result ignores the state before (R85) -/

@[simp] theorem nextOutputs_present (o : Outputs) (d : Bool) (k : Key) (b : Block) :
    nextOutputs o (present d k b) = { dout := transformBlock k b d, valid := true } :=
  nextOutputs_command (present_rst d k b) (present_start d k b)

theorem step_presentNext_present (d : Bool) (k : Key) (b : Block) (s : State) :
    ∃ t : State, step (presentNext (present d k b) s) = .next t ∧
      t.outputs = { dout := transformBlock k b d, valid := true } :=
  ⟨_, step_eq _, by rw [afterEdge_outputs, sample_presentNext, nextOutputs_present]⟩

/-- Settles O46: both steps leave the outputs that the operands and the direction alone name. -/
theorem resultIgnoresEarlierState : Obligations.ResultIgnoresEarlierState := by
  intro s s' d k b
  obtain ⟨t, hstep, hout⟩ := step_presentNext_present d k b s
  obtain ⟨t', hstep', hout'⟩ := step_presentNext_present d k b s'
  exact ⟨t, t', hstep, hstep', hout.trans hout'.symm, hout⟩

/-! ## Edge cases (R86) -/

/-- The keys and blocks of 95_test_vectors.md section 4. -/
def edgeCases : List (Key × Block) :=
  [(0#10, 0x00#8), (0#10, 0xFF#8), (1023#10, 0x00#8), (1023#10, 0xFF#8),
   (509#10, 0x00#8), (509#10, 0xFF#8), (642#10, 0x00#8), (642#10, 0xFF#8)]

theorem edgeCases_encrypt : edgeCases.map (fun q => transformBlock q.1 q.2 false) =
    [0xF0#8, 0x14#8, 0xEB#8, 0x0F#8, 0x39#8, 0xDD#8, 0xCE#8, 0x2A#8] := by
  simp only [edgeCases, List.map_cons, List.map_nil, List.cons.injEq, and_true]
  and_intros <;> decide

theorem edgeCases_decrypt : edgeCases.map (fun q => transformBlock q.1 q.2 true) =
    [0xF0#8, 0x14#8, 0xEB#8, 0x0F#8, 0x87#8, 0x0F#8, 0xB6#8, 0x6A#8] := by
  simp only [edgeCases, List.map_cons, List.map_nil, List.cons.injEq, and_true]
  and_intros <;> exact decrypt_eq_of_encrypt_eq (by decide)

/-- Settles O47: the tabled values in both directions; the round trips hold for all keys. -/
theorem edgeKeysAndBlocks : Obligations.EdgeKeysAndBlocks := by
  have henc := edgeCases_encrypt
  have hdec := edgeCases_decrypt
  simp only [edgeCases, List.map_cons, List.map_nil, List.cons.injEq, and_true] at henc hdec
  unfold Obligations.EdgeKeysAndBlocks
  simp only [List.map_cons, List.map_nil, decrypt_encrypt, encrypt_decrypt, henc, hdec]

/-! ## A stream of commands (R88) -/

theorem trace_succ (n : Nat) (s : State) :
    trace (n + 1) s = (afterEdge s).outputs :: trace n (afterEdge s) := by
  rw [trace, step_eq]

/-- One command per byte: the host reads each byte's result, in order. -/
theorem trace_commands {d : Bool} {k : Key} (bytes : List Block) {rest : List Inputs} {s : State}
    (h : s.inputs = bytes.map (present d k) ++ rest) :
    trace bytes.length s =
      bytes.map (fun b => { dout := transformBlock k b d, valid := true }) := by
  induction bytes generalizing s with
  | nil => rfl
  | cons b bytes ih =>
    have htail : (afterEdge s).inputs = bytes.map (present d k) ++ rest := by
      rw [afterEdge_inputs, h]; rfl
    rw [List.length_cons, trace_succ, afterEdge_outputs, sample_cons h, nextOutputs_present,
      ih htail, List.map_cons]

theorem dout_trace_commands {d : Bool} {k : Key} (bytes : List Block) {rest : List Inputs}
    {s : State} (h : s.inputs = bytes.map (present d k) ++ rest) :
    (trace bytes.length s).map Outputs.dout = bytes.map (fun b => transformBlock k b d) := by
  rw [trace_commands bytes h, List.map_map]
  rfl

/-- Settles O51: the second pass is a stream of the first pass's results, each of which the other
direction takes back to its byte. -/
theorem streamIsEcbAndRecovers : Obligations.StreamIsEcbAndRecovers := by
  intro d k bytes rest s h
  refine ⟨trace_commands bytes h, fun rest' s' h' => ?_⟩
  have hpass := dout_trace_commands _ h'
  simpa [dout_trace_commands bytes h, Function.comp_def, transformBlock_not_transformBlock]
    using hpass

/-! ## F determines its round key (R71) -/

theorem split_injective {h : Nat} : Function.Injective (split (h := h)) :=
  Function.LeftInverse.injective concat_split

theorem split_xor_left {h : Nat} (a b : BitVec (h + h)) :
    (split (a ^^^ b)).left = (split a).left ^^^ (split b).left := BitVec.extractLsb'_xor

theorem split_xor_right {h : Nat} (a b : BitVec (h + h)) :
    (split (a ^^^ b)).right = (split a).right ^^^ (split b).right := BitVec.extractLsb'_xor

/-- No change of the input but the zero one is invisible in the output of the box at every input. -/
def NoInvisibleChange (box : HalfBlock → Crumb) : Prop :=
  ∀ d : HalfBlock, (∀ x : HalfBlock, box (x ^^^ d) = box x) → d = 0#4

theorem s0_noInvisibleChange : NoInvisibleChange s0 := by unfold NoInvisibleChange; decide

theorem s1_noInvisibleChange : NoInvisibleChange s1 := by unfold NoInvisibleChange; decide

/-- A box behind a key mixing determines the key. -/
theorem NoInvisibleChange.eq_of_mixed_eq {box : HalfBlock → Crumb} (hbox : NoInvisibleChange box)
    {a b : HalfBlock} (h : ∀ x, box (x ^^^ a) = box (x ^^^ b)) : a = b := by
  have hzero : a ^^^ b = 0#4 := hbox _ fun x => by
    rw [← BitVec.xor_assoc, ← h (x ^^^ a), BitVec.xor_assoc, BitVec.xor_self, BitVec.xor_zero]
  exact BitVec.xor_eq_zero_iff.mp hzero

/-- Each half of EP is a permutation of its input. -/
theorem ep_left_surjective : Function.Surjective fun r => (split (h := 4) (ep r)).left := by decide

theorem ep_right_surjective : Function.Surjective fun r => (split (h := 4) (ep r)).right := by
  decide

/-- P4 loses nothing, so the substitution shows the output of each box. -/
theorem substitute_eq_iff (x y : BitVec 8) :
    substitute x = substitute y ↔
      s0 (split (h := 4) x).left = s0 (split (h := 4) y).left ∧
        s1 (split (h := 4) x).right = s1 (split (h := 4) y).right := by
  refine ⟨fun h => ?_, fun ⟨hleft, hright⟩ => by simp only [substitute, hleft, hright]⟩
  have hpair := congrArg (split (h := 2)) (p4_bijective.injective h)
  exact SplitPair.mk.inj ((split_concat ⟨_, _⟩).symm.trans (hpair.trans (split_concat ⟨_, _⟩)))

theorem roundF_key_injective : Function.Injective fun (sk : RoundKey) r => roundF r sk := by
  intro sk sk' h
  have hboxes (r : HalfBlock) := (substitute_eq_iff (ep r ^^^ sk) (ep r ^^^ sk')).mp (congrFun h r)
  simp only [split_xor_left (h := 4), split_xor_right (h := 4), forall_and] at hboxes
  obtain ⟨h0, h1⟩ := hboxes
  have hleft := s0_noInvisibleChange.eq_of_mixed_eq (ep_left_surjective.forall.mpr h0)
  have hright := s1_noInvisibleChange.eq_of_mixed_eq (ep_right_surjective.forall.mpr h1)
  exact split_injective (congrArg₂ SplitPair.mk hleft hright)

/-! ## Two rounds determine both round keys, in order -/

theorem eq_of_fk_left_eq {sk sk' : RoundKey} (h : ∀ p, (fk p sk).left = (fk p sk').left) :
    sk = sk' :=
  roundF_key_injective <| funext fun r => (BitVec.xor_right_inj 0#4).mp (h ⟨0#4, r⟩)

/-- The second round never changes what the first has made of the left half. -/
theorem twoRounds_right (ks : RoundKey × RoundKey) (p : SplitPair 4) :
    (twoRounds ks p).right = (fk p ks.1).left := rfl

/-- Behind an input that undoes the first round only the second is seen. -/
theorem twoRounds_fk_sw (ks : RoundKey × RoundKey) (p : SplitPair 4) :
    twoRounds ks (fk (sw p) ks.1) = fk p ks.2 := by
  rw [twoRounds, fk_fk, sw_sw]

theorem twoRounds_injective : Function.Injective twoRounds := by
  intro ks ks' h
  have hfirst : ks.1 = ks'.1 := eq_of_fk_left_eq fun p => by
    rw [← twoRounds_right, ← twoRounds_right, h]
  have hsecond : ks.2 = ks'.2 := eq_of_fk_left_eq fun p => by
    rw [← twoRounds_fk_sw, ← twoRounds_fk_sw, h, hfirst]
  exact Prod.ext hfirst hsecond

/-! ## The operation determines the round keys, in order -/

theorem concat_injective {h : Nat} : Function.Injective (concat (h := h)) :=
  Function.LeftInverse.injective split_concat

/-- IP and IP⁻¹ hide nothing of the two rounds. -/
theorem transformBlock_eq_iff (k k' : Key) (d d' : Bool) :
    (∀ b, transformBlock k b d = transformBlock k' b d') ↔ roundKeys k d = roundKeys k' d' := by
  refine ⟨fun h => twoRounds_injective (funext fun p => ?_), fun h b => ?_⟩
  · have hp := h (ipInv (concat p))
    simp only [transformBlock, ip_ipInv, split_concat] at hp
    exact concat_injective (ipInv_bijective.injective hp)
  · rw [transformBlock, transformBlock, h]

/-- The directions of a key agree exactly when the order of its round keys makes no difference. -/
theorem directions_eq_iff (k : Key) :
    (∀ b, transformBlock k b false = transformBlock k b true) ↔ (keygen k).1 = (keygen k).2 := by
  rw [transformBlock_eq_iff, roundKeys_encrypt, roundKeys_decrypt, Prod.mk.injEq]
  exact ⟨fun ⟨h, _⟩ => h, fun h => ⟨h, h.symm⟩⟩

/-! ## The laws of R87 -/

theorem transformBlock_bijective (k : Key) (d : Bool) :
    Function.Bijective fun b => transformBlock k b d :=
  Finite.injective_iff_bijective.mp (transformBlock_injective k d)

/-- Settles O48: with equal round keys the direction that undoes encryption is encryption. -/
theorem encryptionIsBijective : Obligations.EncryptionIsBijective := by
  refine ⟨transformBlock_bijective, fun k hk b => ?_⟩
  have hsame := (directions_eq_iff k).mpr hk
  exact ⟨hsame b, by rw [hsame, decrypt_encrypt]⟩

/-- Encryption is its own inverse only where it is the decryption. -/
theorem directions_eq_of_encrypt_encrypt {k : Key}
    (h : ∀ b, transformBlock k (transformBlock k b false) false = b) (b : Block) :
    transformBlock k b false = transformBlock k b true :=
  (decrypt_eq_of_encrypt_eq (h b)).symm

/-- Settles O49: directions that agree everywhere would make the round keys equal. -/
theorem unequalRoundKeysGiveUnequalDirections :
    Obligations.UnequalRoundKeysGiveUnequalDirections := by
  intro k hk
  have hdiffer := mt (directions_eq_iff k).mp hk
  exact ⟨not_forall.mp hdiffer, not_forall.mp (mt directions_eq_of_encrypt_encrypt hdiffer)⟩

/-- Settles O50: the encryption function determines the round keys, which determine the key. -/
theorem encryptionFunctionDeterminesKey : Obligations.EncryptionFunctionDeterminesKey :=
  fun k k' h => keygen_injective ((transformBlock_eq_iff k k' false false).mp h)

end Sys2Proof.Proofs.CipherCommands
end

section
/-! PROOF. The rules of 60_exceptions.md and 70_reset_and_hazards.md: no command and no run stops
(R89), reset wins over a command at its edge (R92, R99), and the instances of a system are
independent copies (R96). A step is the table of R12, so a run is that table edge after edge, and an
instance's edge is the table under its own host. -/

namespace Sys2Proof.Proofs.Exceptions

open Sys2Proof.Machine Sys2Proof.Safety Sys2Proof.Laws Sys2Proof.Proofs.PortStep
  Sys2Proof.Proofs.Memory Sys2Proof.Proofs.CipherCommands

/-! ## Nothing stops (R89) -/

theorem run_eq_iterate (n : Nat) (s : State) :
    Sys2Proof.core.run n s = .next (afterEdge^[n] s) := by
  induction n generalizing s with
  | zero => exact run_zero s
  | succ n ih => rw [run_succ, ih, Function.iterate_succ_apply]

/-- Settles O52: the next states are named, a command's by `exec_eq` and a run's by the iterated
table of R12. -/
theorem nothingFaultsOrIsRefused : Obligations.NothingFaultsOrIsRefused :=
  ⟨fun i s => ⟨afterCommand i s, exec_eq i s⟩, fun n s => ⟨afterEdge^[n] s, run_eq_iterate n s⟩⟩

/-! ## Reset (R92, R99) -/

theorem afterEdge_of_reset {s : State} (hr : (sample s).rst = true) :
    afterEdge s =
      { dout := 0x00#8, valid := false, inputs := s.inputs.tail, edge := s.edge + 1,
        host := s.host } := by
  rw [afterEdge, nextOutputs_reset hr]

/-- Samples that end in a reset leave the reset values, whatever came before it. -/
theorem foldl_nextOutputs_of_getLast_reset {xs : List Inputs} (hne : xs ≠ [])
    (hr : (xs.getLast hne).rst = true) (o : Outputs) :
    xs.foldl nextOutputs o = { dout := 0x00#8, valid := false } := by
  rw [← List.dropLast_concat_getLast hne, List.foldl_concat, nextOutputs_reset hr]

/-- Settles O54: a reset is the first row of R12; of consecutive resets the last one alone decides
the outputs; and a command leaves its result whatever the edge before it left. -/
theorem resetWinsOverCommand : Obligations.ResetWinsOverCommand := by
  refine ⟨fun s hr => ?_, fun xs rest s hxs hne hr => ?_, fun p d k b rest s hinputs _ => ?_⟩
  · rw [step_eq, afterEdge_of_reset hr]
  · have hlast := hr (xs.getLast hne) (List.getLast_mem hne)
    rw [runIsFoldOfPortTable xs rest s hxs, foldl_nextOutputs_of_getLast_reset hne hlast]
  · obtain ⟨t, hrun, hout, hrest, -⟩ := run_samples [p, present d k b] hinputs
    refine ⟨t, hrun, ?_, hrest⟩
    rw [hout, List.foldl_cons, List.foldl_cons, nextOutputs_present, List.foldl_nil]

/-! ## Several instances (R96) -/

/-- Settles O53: an instance's edge is the step of its own state under its own host, so equal states
at one place have equal outcomes there. -/
theorem instancesAreIndependent : Obligations.InstancesAreIndependent := by
  intro cores cores' i h
  exact ⟨by rw [systemStep_getElem?, systemStep_getElem?, h], systemStep_getElem? cores i⟩

theorem systemStep_getElem?_of_some {cores : List State} {i : Nat} {s : State}
    (h : cores[i]? = some s) :
    (systemStep cores)[i]? = some (.next (afterEdge (drivenBy i s))) := by
  rw [systemStep_getElem?, h, Option.map_some, step_eq]

/-- Settles O58: the instance's edge is one row of R12 on what its own list, or its own host,
presents to it. -/
theorem systemIsProductOfPortTables : Obligations.SystemIsProductOfPortTables := by
  intro cores i s h
  refine ⟨afterEdge (drivenBy i s), systemStep_getElem?_of_some h, fun p rest hlist => ?_,
    fun hended => ?_, rfl, rfl, rfl⟩
  · have hsample : sample (drivenBy i s) = p := sample_cons hlist
    rw [afterEdge_outputs, drivenBy_outputs, hsample]
  · have hsample : sample (drivenBy i s) = freeInputs i s.edge := sample_nil hended
    rw [afterEdge_outputs, drivenBy_outputs, hsample]

end Sys2Proof.Proofs.Exceptions
end

section
/-! PROOF. The invariant of 70_reset_and_hazards.md R104, kept because each row of R12 keeps it, and
the result's latency of R106: a command's edge writes it and the idle edges hold it. -/

namespace Sys2Proof.Proofs.ResetAndHazards

open Sys2Proof.Machine Sys2Proof.Safety Sys2Proof.Laws Sys2Proof.Proofs.PortStep
  Sys2Proof.Proofs.CipherCommands

/-! ## While VALID = 0, DOUT reads 0x00 (R104) -/

/-- R104 at the output ports. -/
def InvalidReadsZero (o : Outputs) : Prop := o.valid = false → o.dout = 0x00#8

theorem invalidReadsZero_outputs (s : State) : InvalidReadsZero s.outputs ↔ InvalidMeansZero s :=
  Iff.rfl

/-- Each row of R12 keeps R104: reset writes zero, idle holds, and a command sets VALID. -/
theorem invalidReadsZero_nextOutputs {o : Outputs} (ho : InvalidReadsZero o) (p : Inputs) :
    InvalidReadsZero (nextOutputs o p) := by
  cases hr : p.rst with
  | true =>
    rw [nextOutputs_reset hr]
    exact fun _ => rfl
  | false =>
    cases hs : p.start with
    | false => rwa [nextOutputs_idle hr hs]
    | true =>
      rw [nextOutputs_command hr hs]
      exact fun hvalid => absurd hvalid.symm Bool.false_ne_true

/-- Settles O10: a step's outputs are one row of R12, and each row keeps the invariant. -/
theorem stepKeepsInvalidOutputZero : Obligations.StepKeepsInvalidOutputZero := by
  intro s t hs hstep
  rw [← invalidReadsZero_outputs] at hs ⊢
  rw [step_outputs hstep]
  exact invalidReadsZero_nextOutputs hs (sample s)

/-- Settles O9: the reset value of DOUT is 0x00. -/
theorem invalidOutputIsZeroAtReset : Obligations.InvalidOutputIsZeroAtReset := fun _ => rfl

/-! ## A result is at the outputs after LATENCY edges and is held (R106) -/

/-- LATENCY counts the one edge that samples the command. -/
theorem latency_add_length (command : Inputs) (idles : List Inputs) :
    Config.latency + idles.length = (command :: idles).length := by
  rw [List.length_cons, Config.latency, Nat.add_comm]

theorem foldl_nextOutputs_present_idle {idles : List Inputs}
    (hidle : ∀ p ∈ idles, p.rst = false ∧ p.start = false) (d : Bool) (k : Key) (b : Block)
    (o : Outputs) :
    (present d k b :: idles).foldl nextOutputs o =
      { dout := transformBlock k b d, valid := true } := by
  rw [List.foldl_cons, nextOutputs_present, foldl_nextOutputs_idle hidle]

/-- Settles O55: the run is the fold of R12 over the command and the idle samples, which uses up
exactly these; the command's row writes the result and the idle rows hold it. -/
theorem resultAfterLatencyIsHeld : Obligations.ResultAfterLatencyIsHeld := by
  intro d k b idles rest s hinputs hidle
  obtain ⟨t, hrun, hout, hrest, -⟩ := run_samples (present d k b :: idles) hinputs
  refine ⟨t, ?_, ?_, hrest⟩
  · rw [latency_add_length (present d k b), hrun]
  · rw [hout, foldl_nextOutputs_present_idle hidle]

end Sys2Proof.Proofs.ResetAndHazards
end
